-- ==== Sys2Proof/Word.lean ====
section
/-! DEFINITION. The word of the core (spec/00_scope.md R5, R8; spec/20_memory.md R51). -/

namespace Sys2Proof

/-- One word, as the spec reads every word: the signed integer `int(v)` (00_scope.md R5, R8). The width `W` is a
parameter of the machine, so a word is an integer whose range is `inWordRange W`; no rule slices a word
(30_encoding.md R81). `Int` is written where a word is computed with or compared, as the spec's `int(v)` is; the stored
fields say `Word`. DESIGN CHOICE, log entry 2. -/
abbrev Word := Int

/-- The range of a `W`-bit two's-complement word, `[-2^(W-1), 2^(W-1)-1]` (00_scope.md R5). -/
abbrev inWordRange (W : Nat) (v : Int) : Prop :=
  -(2 : Int) ^ (W - 1) ≤ v ∧ v ≤ (2 : Int) ^ (W - 1) - 1

end Sys2Proof
end

