-- ==== Sys2Proof/Machine/Alu.lean ====
section
/-! DEFINITION. `wrap_W` and the two ALU operations (spec/00_scope.md R8; spec/41_arithmetic.md R123, R124). -/

namespace Sys2Proof.Machine

/-- `wrap_W(z)`: the integer congruent to `z` modulo `2^W` in the range of a `W`-bit signed word (00_scope.md R8). -/
def wrapW (W : Nat) (z : Int) : Int := Int.bmod z (2 ^ W)

/-- The stored sum: the exact integer sum, wrapped (41_arithmetic.md R123). -/
def aluAdd (W : Nat) (va vb : Int) : Int := wrapW W (va + vb)

/-- The stored product: the exact integer product, wrapped (41_arithmetic.md R124). -/
def aluMul (W : Nat) (va vb : Int) : Int := wrapW W (va * vb)

end Sys2Proof.Machine
end

