-- ==== Sys2Proof/Config.lean ====
section
/-! DEFINITION. The implementation parameters (spec/00_scope.md R5, R6, R7; spec/93_implementation_defined.md U12). -/

namespace Sys2Proof

/-- The two parameters the spec leaves open: the word width and the physical capacity of Memory in words. They are
fixed for a machine; State carries them and no step changes them (40_sequencer.md R111 (b)). Log entry 1. -/
structure Config where
  /-- The word width in bits (00_scope.md R5). -/
  W : Nat
  /-- The physical capacity of Memory in words (00_scope.md R6). -/
  NMAX : Nat
  deriving DecidableEq, Repr

/-- The constraints on the parameters: `W >= 8` and `NMAX <= 2^(W-1) - 1` (00_scope.md R5, R6). -/
abbrev Config.wf (c : Config) : Prop := 8 ≤ c.W ∧ c.NMAX ≤ 2 ^ (c.W - 1) - 1

/-- The spec's reference instantiation `W = 32` (00_scope.md R5), with the largest capacity that width admits.
DESIGN CHOICE, log entry 1: it is what `State.reset` and `decodeTableWord` take. -/
def Config.reference : Config := { W := 32, NMAX := 2 ^ 31 - 1 }

end Sys2Proof
end

