-- ==== Sys2Proof/Syntax.lean ====
section
/-! DEFINITION. The three instructions (spec/00_scope.md R2; spec/30_encoding.md R80, R82, R90). -/

namespace Sys2Proof

/-- An instruction with its operand words, in Memory order (30_encoding.md R90). One constructor per row of
spec/opcode_table.json. -/
inductive Instr where
  /-- `ADD a b t` (41_arithmetic.md R120). -/
  | add (a b t : Word)
  /-- `MUL a b t` (41_arithmetic.md R121). -/
  | mul (a b t : Word)
  /-- `HLT` (42_halt.md R140). -/
  | hlt
  deriving DecidableEq, Repr

end Sys2Proof
end

