-- ==== Sys2Proof/Machine/State.lean ====
section
/-! DEFINITION. The state of the core as plain data, its reset value, and the reasons the MODEL stops
(spec/10_state.md R20 to R34). The core's own faults are no model stop: they are states (`Status.faulted`). -/

namespace Sys2Proof.Machine

/-- The stored state of the CPU's state machine (10_state.md R23). -/
inductive Status where
  | running
  | halted
  | faulted
  deriving DecidableEq, Repr

/-- Which fault the record holds (10_state.md R26, R27; 60_exceptions.md R150). -/
inductive FaultKind where
  /-- No fault. -/
  | none
  /-- An access outside `0 .. N-1`. -/
  | memoryFault
  /-- An opcode word other than 1, 2, 99. -/
  | invalidOpcode
  deriving DecidableEq, Repr

/-- Why a step of the MODEL has no next state. The core's MemoryFault and InvalidOpcode are not here: the spec
describes their entry (60_exceptions.md R158), so they are next states. -/
inductive Fault where
  /-- Raised by the CPU's reads (`reading`) at an address below `N` that nothing has written. The spec gives such a
  cell no value and no run that starts so (10_state.md R34; 70_reset_and_hazards.md R193; U5, treatment `refuse`).
  SAFE: the model stops where the hardware goes on with an unspecified value. Log entry 3. -/
  | unwrittenCell (addr : Nat)
  deriving DecidableEq, Repr

/-- Moves the model gives no meaning, by name. Only `portStep` (the host's moves) raises the last four. -/
inductive Refusal where
  /-- An instruction that has no meaning yet; no arm of `exec` answers it now. SAFE. -/
  | notModelled (mnemonic : String)
  /-- Releasing reset while `MLEN` was never written (70_reset_and_hazards.md R193; U5). SAFE: the spec asks for this
  refusal. Log entry 7. -/
  | lengthNeverWritten
  /-- Releasing reset while a cell below `N` was never written (70_reset_and_hazards.md R193; U5). SAFE: the spec asks
  for this refusal. Log entry 7. -/
  | partialImage
  /-- The host writes a value outside the word range (30_encoding.md R91; 70_reset_and_hazards.md R200; U6). SAFE.
  Log entry 7. -/
  | valueOutOfWordRange
  /-- The host writes a length outside `0 .. NMAX` (10_state.md R32; 70_reset_and_hazards.md R200). SAFE. Log entry 7. -/
  | lengthOutOfRange
  deriving DecidableEq, Repr

/-- Memory as (word address, word) pairs; one cell is one word (10_state.md R29; 20_memory.md R51, R52). -/
abbrev Memory := List (Nat × Word)

/-- The canonical form: addresses strictly rising. An unlisted cell has no value (`unlistedCell`), so no entry can
equal what an unlisted address reads as. -/
abbrev Memory.wf (m : Memory) : Prop := m.Pairwise (fun x y => x.1 < y.1)

/-- The whole state: the tuple of 10_state.md R30, the levels of the two input ports a step reads (R32), the
configuration (00_scope.md R14.2), and one field of the model's own, `mlenWritten`. -/
structure State where
  /-- The parameters `W` and `NMAX`; constant (40_sequencer.md R111 (b)). -/
  cfg : Config
  /-- The instruction pointer, a word address (10_state.md R21). -/
  ip : Nat
  /-- The CPU's state (10_state.md R23). -/
  status : Status
  /-- Fault record: which fault (10_state.md R26). -/
  faultKind : FaultKind
  /-- Fault record: the offending opcode word or address (10_state.md R26). -/
  faultValue : Word
  /-- Fault record: the address of the faulting instruction's opcode (10_state.md R26). -/
  faultAt : Nat
  /-- `MLEN`, the memory length `N` in words (10_state.md R28). -/
  mlen : Nat
  /-- Memory `M` (10_state.md R29). -/
  mem : Memory
  /-- The level of the reset port (10_state.md R32). -/
  rst : Bool
  /-- The level of the step-enable port (10_state.md R32). -/
  en : Bool
  /-- Whether the host has ever written `MLEN` (10_state.md R28, 70_reset_and_hazards.md R193). The model's own field:
  no step reads it; it gates a launch (`releaseRst`) and the host's read of `MLEN`. Log entry 4. -/
  mlenWritten : Bool
  deriving DecidableEq, Repr

/-- What a step answers. -/
abbrev Result := Host.Outcome State Fault Refusal

/-- The machine right after the release of reset with nothing loaded (10_state.md R34; 70_reset_and_hazards.md R190).
The spec states `ip`, `status` and the fault record; `rst` is 0 because it was just released. The configuration
(log entry 1), `mlen = 0`, which nothing has written (log entry 4), no cell written (log entry 3) and `en = 1` (log entry 5) are DESIGN CHOICEs. -/
def State.reset : State :=
  { cfg := Config.reference
    ip := 0
    status := .running
    faultKind := .none
    faultValue := 0
    faultAt := 0
    mlen := 0
    mem := []
    rst := false
    en := true
    mlenWritten := false }

end Sys2Proof.Machine
end

