-- ==== Sys2Proof/Machine/Ops.lean ====
section
/-! DEFINITION. The named operations over Memory and the CPU state: the two memory primitives, taking a fault, and
reset, the one way out of a fault (spec/00_scope.md R10, R11; spec/60_exceptions.md R158, R160, R161). -/

namespace Sys2Proof.Machine

/-- What an unlisted cell reads as: no value, since the spec gives a never-written cell none (10_state.md R34).
DESIGN CHOICE, log entry 3. -/
def unlistedCell : Option Int := none

/-- The word in a cell, if something has written it. -/
def readCell : Memory → Nat → Option Int
  | [], _ => unlistedCell
  | (b, v) :: m, a => if b = a then some v else readCell m a

/-- Replace the whole word of one cell (20_memory.md R54), keeping the addresses rising. -/
def writeCell : Memory → Nat → Int → Memory
  | [], a, v => [(a, v)]
  | (b, w) :: m, a, v =>
    if b < a then (b, w) :: writeCell m a v
    else if b = a then (a, v) :: m
    else (a, v) :: (b, w) :: m

/-- The bounds check: `0 <= addr < N`, compared as signed integers (20_memory.md R55). -/
abbrev inBounds (s : State) (addr : Int) : Prop := 0 ≤ addr ∧ addr < s.mlen

/-- The outcome of one read access. -/
inductive Access where
  /-- The word in the cell. -/
  | value (v : Int)
  /-- The bounds check failed: `MemoryFault(addr)`. -/
  | outOfRange
  /-- In bounds, but nothing has written the cell. -/
  | unwritten
  deriving DecidableEq, Repr

/-- `MemRead(addr, 1)` (00_scope.md R10). -/
def memRead (s : State) (addr : Int) : Access :=
  if inBounds s addr then
    match readCell s.mem addr.toNat with
    | some v => .value v
    | none => .unwritten
  else .outOfRange

/-- `ip <- target` (00_scope.md R9). -/
def setIp (target : Nat) (s : State) : State := { s with ip := target }

/-- `M[addr] <- v`, after the bounds check. -/
def setCell (addr : Nat) (v : Int) (s : State) : State := { s with mem := writeCell s.mem addr v }

/-- The host's write of `MLEN` (10_state.md R28), remembered as made. -/
def setLength (n : Nat) (s : State) : State := { s with mlen := n, mlenWritten := true }

/-- `status <- st`. -/
def setStatus (st : Status) (s : State) : State := { s with status := st }

/-- Taking a fault (60_exceptions.md R158; 00_scope.md R11): `status` becomes `Faulted` and the record is written;
`ip` and Memory keep the values they have at the raise. `ip0` is the address of the step's opcode. There is no vector
and no saved state, and no instruction returns from a fault (R160): reset alone does (R161, `cpuReset`). -/
def takeFault (kind : FaultKind) (value : Int) (ip0 : Nat) (s : State) : State :=
  { s with status := .faulted, faultKind := kind, faultValue := value, faultAt := ip0 }

/-- The reset values of the CPU state; Memory, `MLEN` and the port levels are untouched
(10_state.md R34; 70_reset_and_hazards.md R190, R191). -/
def cpuReset (s : State) : State :=
  { s with ip := 0, status := .running, faultKind := .none, faultValue := 0, faultAt := 0 }

/-- `v := MemRead(addr, 1)` and go on with `k v`; a failed bounds check raises `MemoryFault(addr)` in `s`
(00_scope.md R10, R11). -/
def reading (s : State) (ip0 : Nat) (addr : Int) (k : Int → Result) : Result :=
  match memRead s addr with
  | .value v => k v
  | .outOfRange => .next (takeFault .memoryFault addr ip0 s)
  | .unwritten => .fault (.unwrittenCell addr.toNat)

/-- `MemWrite(addr, 1, v)`, the last action of a step; a failed bounds check raises `MemoryFault(addr)` and writes
nothing (00_scope.md R10, R11). -/
def storing (s : State) (ip0 : Nat) (addr : Int) (v : Int) : Result :=
  if inBounds s addr then .next (setCell addr.toNat v s)
  else .next (takeFault .memoryFault addr ip0 s)

end Sys2Proof.Machine
end

