-- ==== Sys2Proof/Machine/Operands.lean ====
section
/-! DEFINITION. The one operand form: three operand words after the opcode, each the absolute address of a cell
(spec/30_encoding.md R80, R84; spec/41_arithmetic.md R122). -/

namespace Sys2Proof.Machine

/-- Actions (3) to (5) of the step (40_sequencer.md R101): read the operand words `a`, `b`, `t` at `ip0+1 .. ip0+3`,
in the state `s` that action (2) left. -/
def operandWords (s : State) (ip0 : Nat) (k : Int → Int → Int → Result) : Result :=
  reading s ip0 (ip0 + 1 : Int) fun a =>
  reading s ip0 (ip0 + 2 : Int) fun b =>
  reading s ip0 (ip0 + 3 : Int) fun t => k a b t

/-- Actions (7) and (8): the two source words, each operand word used as it stands as a signed absolute address
(41_arithmetic.md R122), `a` before `b` (20_memory.md R58). -/
def sourceWords (s : State) (ip0 : Nat) (a b : Int) (k : Int → Int → Result) : Result :=
  reading s ip0 a fun va =>
  reading s ip0 b fun vb => k va vb

end Sys2Proof.Machine
end

