-- ==== Sys2Proof/Machine/Arithmetic.lean ====
section
/-! DEFINITION. ADD and MUL (spec/41_arithmetic.md R120 to R125; spec/40_sequencer.md R101 actions (6) to (9)). -/

namespace Sys2Proof.Machine

/-- The body ADD and MUL share, in the state whose `ip` is the address of the opcode: advance `ip` by 4 first
(40_sequencer.md R102), read both sources, then store the ALU's result, the one write and the last action
(41_arithmetic.md R120, R121). -/
def arith (alu : Int → Int → Int) (a b t : Int) (s : State) : Result :=
  let s1 := setIp (s.ip + 4) s
  sourceWords s1 s.ip a b fun va vb => storing s1 s.ip t (alu va vb)

/-- ADD (41_arithmetic.md R120). -/
def execAdd (a b t : Int) (s : State) : Result := arith (aluAdd s.cfg.W) a b t s

/-- MUL (41_arithmetic.md R121). -/
def execMul (a b t : Int) (s : State) : Result := arith (aluMul s.cfg.W) a b t s

end Sys2Proof.Machine
end

