-- ==== Sys2Proof/Machine/System.lean ====
section
/-! DEFINITION. HLT, the one system instruction (spec/42_halt.md R140, R142). -/

namespace Sys2Proof.Machine

/-- HLT: `ip` past the opcode, `status <- Halted`; no memory access and no write of the fault record (42_halt.md R140). -/
def execHlt (s : State) : Result := .next (setStatus .halted (setIp (s.ip + 1) s))

end Sys2Proof.Machine
end

