-- ==== Sys2Proof/Machine/Dispatch.lean ====
section
/-! DEFINITION. The dispatch: one arm per instruction (spec/40_sequencer.md R101). -/

namespace Sys2Proof.Machine

/-- The effect of an instruction whose opcode is at `s.ip`, all its words already fetched. -/
def exec (i : Instr) (s : State) : Host.Outcome State Fault Refusal :=
  match i with
  | .add a b t => Sys2Proof.Machine.execAdd a b t s
  | .mul a b t => Sys2Proof.Machine.execMul a b t s
  | .hlt => Sys2Proof.Machine.execHlt s

end Sys2Proof.Machine
end

