-- ==== Sys2Proof/WellFormed.lean ====
section
/-! DEFINITION. Which instructions have an encoding in `W`-bit words (spec/00_scope.md R5; spec/30_encoding.md R80, R89). -/

namespace Sys2Proof

/-- Each operand is one whole `W`-bit word (30_encoding.md R80, R81). No operand value in that range is reserved
(R89), and the range of the addresses is checked at use only (R84). -/
abbrev WellFormed (W : Nat) : Instr → Prop
  | .add a b t => inWordRange W a ∧ inWordRange W b ∧ inWordRange W t
  | .mul a b t => inWordRange W a ∧ inWordRange W b ∧ inWordRange W t
  | .hlt => True

end Sys2Proof
end

