-- ==== Sys2Proof/Decode.lean ====
section
/-! DEFINITION. The decoder, the encoder, and the numbering of bits that spec/opcode_table.json uses
(spec/30_encoding.md R80 to R88, R93). -/

namespace Sys2Proof

/-- The three recognised operations (30_encoding.md R82). -/
inductive Opcode where
  | add
  | mul
  | hlt
  deriving DecidableEq, Repr

/-- The opcode map: the whole signed word is compared, nothing is masked (30_encoding.md R82, R87). -/
def decodeOpcode (op : Int) : Option Opcode :=
  if op = 1 then some .add
  else if op = 2 then some .mul
  else if op = 99 then some .hlt
  else none

/-- The opcode word of an operation (30_encoding.md R82). -/
def opcodeWord : Opcode → Int
  | .add => 1
  | .mul => 2
  | .hlt => 99

/-- What decoding a list of words gives: an instruction and the words after it, or a refusal by name. -/
inductive Decoded where
  /-- The first words are this instruction; `rest` follows it. -/
  | instr (i : Instr) (rest : List Int)
  /-- The first word is no opcode (30_encoding.md R88). -/
  | invalidOpcode (op : Int)
  /-- The list ends before the instruction does. -/
  | incomplete
  deriving DecidableEq, Repr

/-- Decode the instruction at the head of a list of words, total on any list. The opcode word alone decides the
length; the operand words are read only for opcodes 1 and 2 (30_encoding.md R80, R83, R88). -/
def decode : List Int → Decoded
  | [] => .incomplete
  | op :: ws =>
    match decodeOpcode op, ws with
    | none, _ => .invalidOpcode op
    | some .hlt, rest => .instr .hlt rest
    | some .add, a :: b :: t :: rest => .instr (.add a b t) rest
    | some .mul, a :: b :: t :: rest => .instr (.mul a b t) rest
    | some .add, _ => .incomplete
    | some .mul, _ => .incomplete

/-- The words of an instruction in Memory order (30_encoding.md R80, R82). -/
def encode : Instr → List Int
  | .add a b t => [opcodeWord .add, a, b, t]
  | .mul a b t => [opcodeWord .mul, a, b, t]
  | .hlt => [opcodeWord .hlt]

/-- The instruction's length in words: 4 for format Q, 1 for format S (30_encoding.md R80, R83). -/
def lengthWords : Instr → Nat
  | .add _ _ _ => 4
  | .mul _ _ _ => 4
  | .hlt => 1

/-- The longest instruction, in words (30_encoding.md R80). -/
def maxLengthWords : Nat := 4

/-- The first `count` words of the number `w`, bit 0 the least significant bit of the first word, each read as a
signed `W`-bit word (00_scope.md R8; the numbering of 30_encoding.md R93 carried on to the later words). -/
def wordsOfBits (W : Nat) : Nat → Nat → List Int
  | 0, _ => []
  | count + 1, w => Machine.wrapW W (w : Int) :: wordsOfBits W count (w / 2 ^ W)

/-- The number whose successive `W`-bit words are these, the first the least significant. -/
def bitsOfWords (W : Nat) : List Int → Nat
  | [] => 0
  | v :: vs => (v % 2 ^ W).toNat + 2 ^ W * bitsOfWords W vs

/-- The words of an instruction whose low `nbits` bits are those of `w` and whose further bits are 0. -/
def tableWords (W nbits w : Nat) : List Int := wordsOfBits W maxLengthWords (w % 2 ^ nbits)

/-- The instruction the decoder reads from an instruction whose bits are `w`, at width `W`. -/
def decodeBits (W nbits w : Nat) : Option Instr :=
  match decode (tableWords W nbits w) with
  | .instr i _ => some i
  | .invalidOpcode _ => none
  | .incomplete => none

/-- The bits of an instruction as one number, at width `W`. -/
def encodeBits (W : Nat) (i : Instr) : Nat := bitsOfWords W (encode i)

/-- `decodeBits` at the width spec/opcode_table.json prints, 32 (30_encoding.md R93). -/
def decodeTableWord (nbits w : Nat) : Option Instr := decodeBits Config.reference.W nbits w

end Sys2Proof
end

