-- ==== Sys2Proof/Machine/Sequencer.lean ====
section
/-! DEFINITION. The gate, the fetch and the shape of a step (spec/40_sequencer.md R100, R101; spec/30_encoding.md R83,
R86, R88), and placing an instruction where the next step fetches. -/

namespace Sys2Proof.Machine

/-- A step is begun only with `rst = 0`, `status = Running` and `en = 1` (40_sequencer.md R100). -/
abbrev ready (s : State) : Prop := s.rst = false ∧ s.status = .running ∧ s.en = true

/-- Actions (1) to (5) of the step and the dispatch (40_sequencer.md R101): fetch the opcode word, advance past it,
and, for opcodes 1 and 2 only, fetch the operand words; go on with the instruction. The continuation is given the
instruction alone; what it runs in is the caller's (`stepWith`). Any other opcode raises `InvalidOpcode` (30_encoding.md R88). -/
def fetchThen (s : State) (k : Instr → Result) : Result :=
  reading s s.ip s.ip fun op =>
    let s1 := setIp (s.ip + 1) s
    match decodeOpcode op with
    | some .add => operandWords s1 s.ip fun a b t => k (.add a b t)
    | some .mul => operandWords s1 s.ip fun a b t => k (.mul a b t)
    | some .hlt => k .hlt
    | none => .next (takeFault .invalidOpcode op s.ip s1)

/-- One step request at a step boundary, over a dispatch `ex`: in reset the CPU state holds its reset values
(70_reset_and_hazards.md R190); when not running, or not enabled, nothing changes (40_sequencer.md R100;
70_reset_and_hazards.md R197); otherwise fetch, decode and execute. -/
def stepWith (ex : Instr → State → Result) (s : State) : Result :=
  if s.rst then .next (cpuReset s)
  else if s.status = .running ∧ s.en = true then fetchThen s fun i => ex i s
  else .next s

/-- Write consecutive cells from an address up (70_reset_and_hazards.md R194: word `k` to cell `k`). -/
def writeCells : Memory → Nat → List Int → Memory
  | m, _, [] => m
  | m, a, v :: vs => writeCells (writeCell m a v) (a + 1) vs

/-- The words of an instruction given as bits, loaded at `ip`, with `MLEN` covering them, and the core released,
enabled and running with a clear fault record: what the host's load and start do (70_reset_and_hazards.md R193,
R194, R197), so that the very next step fetches them. Log entry 11. -/
def placeInstr (nbits w : Nat) (s : State) : State :=
  { s with
    status := .running
    faultKind := .none
    faultValue := 0
    faultAt := 0
    mlen := max s.mlen (s.ip + maxLengthWords)
    mem := writeCells s.mem s.ip (tableWords s.cfg.W nbits w)
    rst := false
    en := true
    mlenWritten := true }

end Sys2Proof.Machine
end

