-- ==== Sys2Proof/Machine/Step.lean ====
section
/-! DEFINITION. The one transition of the CPU (spec/40_sequencer.md R100, R101). -/

namespace Sys2Proof.Machine

/-- `step()` (40_sequencer.md R101), gated as R100 says. -/
def step (s : State) : Host.Outcome State Fault Refusal := stepWith exec s

/-- The state with this instruction stored where `step` fetches its next instruction. -/
def State.withFetchWord (s : State) (nbits w : Nat) : State := placeInstr nbits w s

end Sys2Proof.Machine
end

