-- ==== Sys2Proof/Machine/Flags.lean ====
section
/-! DEFINITION. The derived flags and the port codes. There is no condition code: no arithmetic writes a flag
(spec/10_state.md R24, R25, R27; spec/41_arithmetic.md R127). -/

namespace Sys2Proof.Machine

/-- `halted = (status = Halted)` (10_state.md R24). -/
def haltedFlag (s : State) : Bool := s.status == .halted

/-- `running = (status = Running)` (10_state.md R24). -/
def runningFlag (s : State) : Bool := s.status == .running

/-- `faulted = (status = Faulted)` (10_state.md R24). -/
def faultedFlag (s : State) : Bool := s.status == .faulted

/-- The two-bit code of `status` on its port; `0b11` is never produced (10_state.md R25). -/
def statusCode : Status → BitVec 2
  | .running => 0b00#2
  | .halted => 0b01#2
  | .faulted => 0b10#2

/-- The two-bit code of `fault_kind` on its port; `0b11` is never produced (10_state.md R27). -/
def faultKindCode : FaultKind → BitVec 2
  | .none => 0b00#2
  | .memoryFault => 0b01#2
  | .invalidOpcode => 0b10#2

end Sys2Proof.Machine
end

