-- ==== Sys2Proof/Machine/Run.lean ====
section
/-! DEFINITION. `run()` (spec/40_sequencer.md R105, R107). -/

namespace Sys2Proof.Machine

/-- `n` step requests in a row, ending early only where a step has no next state. -/
def iterateStep (f : State → Result) : Nat → State → Result
  | 0, s => .next s
  | n + 1, s =>
    match f s with
    | .next s' => iterateStep f n s'
    | .fault r => .fault r
    | .refused r => .refused r

/-- `while status = Running do step()` (40_sequencer.md R105), with the fuel R107 says is enough. A step request after
the stop changes nothing (R100), so the requests left over are idle. -/
def run (s : State) : Result := iterateStep step (s.mlen / 4 + 1) s

end Sys2Proof.Machine
end

