-- ==== Sys2Proof/Machine/Ports.lean ====
section
/-! DEFINITION. The host's side: the ports, the moves of the host protocol and the image load
(spec/10_state.md R25, R27, R32; spec/70_reset_and_hazards.md R190 to R200; spec/60_exceptions.md R171). -/

namespace Sys2Proof.Machine

/-- The output ports (10_state.md R32), less `h_rdata` (`portRead`). -/
structure Outputs (W : Nat) where
  status : BitVec 2
  running : Bool
  halted : Bool
  faulted : Bool
  ip : BitVec W
  faultKind : BitVec 2
  faultValue : BitVec W
  faultAt : BitVec W
  deriving DecidableEq, Repr

/-- What the output ports show of a state (10_state.md R24 to R27, R32). -/
def outputs (s : State) : Outputs s.cfg.W :=
  { status := statusCode s.status
    running := runningFlag s
    halted := haltedFlag s
    faulted := faultedFlag s
    ip := BitVec.ofNat s.cfg.W s.ip
    faultKind := faultKindCode s.faultKind
    faultValue := BitVec.ofInt s.cfg.W s.faultValue
    faultAt := BitVec.ofNat s.cfg.W s.faultAt }

/-- Every cell of the image's range has been written (70_reset_and_hazards.md R193). -/
abbrev totalImage (s : State) : Prop := ∀ a, a < s.mlen → (readCell s.mem a).isSome = true

/-- What the host can do, one move at a time (70_reset_and_hazards.md R200). Log entry 8. -/
inductive HostMove where
  /-- Drive `rst`, between two steps (R190, R192). -/
  | driveRst (level : Bool)
  /-- Raise `rst` while a step is in progress; `completes` says which of the two outcomes R192 admits happens. -/
  | rstMidStep (completes : Bool)
  /-- Drive `en` (R197). -/
  | driveEn (level : Bool)
  /-- Strobe `h_we` with `h_addr` and `h_wdata` (R194, R195). -/
  | writeMem (addr data : Int)
  /-- Strobe `h_re` with `h_addr`; the data is `portRead`'s (R198). -/
  | readMem (addr : Int)
  /-- Strobe `mlen_we` with `mlen_in` (R193). -/
  | writeMlen (n : Int)
  deriving DecidableEq, Repr

/-- `rst = 1`: the CPU state takes its reset values; Memory and `MLEN` stay (70_reset_and_hazards.md R190, R191). -/
def raiseRst (s : State) : State := { cpuReset s with rst := true }

/-- The release of `rst`, refused while `MLEN` or a cell below `N` was never written
(70_reset_and_hazards.md R193; D13; U5). -/
def releaseRst (s : State) : Result :=
  if s.rst then
    if s.mlenWritten then
      if totalImage s then .next { s with rst := false } else .refused .partialImage
    else .refused .lengthNeverWritten
  else .next s

/-- `rst` rising inside a step: the step completes, or is abandoned without its write
(70_reset_and_hazards.md R192; U4). Where no step is in progress it is a rise between steps. -/
def rstInStep (completes : Bool) (s : State) : Result :=
  if ready s ∧ completes = true then
    match step s with
    | .next u => .next (raiseRst u)
    | .fault r => .fault r
    | .refused r => .refused r
  else .next (raiseRst s)

/-- A host write, honoured only while `rst = 1` (10_state.md R32; 70_reset_and_hazards.md R196), checked against the
capacity during the load (R194); one out of range is not performed (60_exceptions.md R171). -/
def portWrite (addr data : Int) (s : State) : Result :=
  if s.rst then
    if inWordRange s.cfg.W data then
      if 0 ≤ addr ∧ addr < s.cfg.NMAX then .next (setCell addr.toNat data s) else .next s
    else .refused .valueOutOfWordRange
  else .next s

/-- A write of `MLEN`, honoured only while `rst = 1` (10_state.md R28, R32; 70_reset_and_hazards.md R196). -/
def portWriteMlen (n : Int) (s : State) : Result :=
  if s.rst then
    if 0 ≤ n ∧ n ≤ s.cfg.NMAX then .next (setLength n.toNat s) else .refused .lengthOutOfRange
  else .next s

/-- `h_rdata` after `h_re`: `M[h_addr]` where the read is permitted, that is while `rst = 1` or after the stop and in
bounds (10_state.md R32; 70_reset_and_hazards.md R196). `none`: the spec leaves `h_rdata` unspecified
(60_exceptions.md R171; U10), or nothing has written the cell. Log entry 9. -/
def portRead (addr : Int) (s : State) : Option Int :=
  if (s.rst = true ∨ s.status ≠ .running) ∧ inBounds s addr then readCell s.mem addr.toNat else none

/-- The host's read of `MLEN` (10_state.md R33): the length it last wrote, at any time. `none`: it never wrote one, and
the value is unspecified (R28). The port list has no read port for it (R32), so when it may be read is the model's
choice. Log entry 15. -/
def portReadMlen (s : State) : Option Int := if s.mlenWritten then some (s.mlen : Int) else none

/-- One move of the host (70_reset_and_hazards.md R200). -/
def portStep (mv : HostMove) (s : State) : Result :=
  match mv with
  | .driveRst true => .next (raiseRst s)
  | .driveRst false => releaseRst s
  | .rstMidStep completes => rstInStep completes s
  | .driveEn level => .next { s with en := level }
  | .writeMem addr data => portWrite addr data s
  | .readMem _ => .next s
  | .writeMlen n => portWriteMlen n s

/-- A sequence of host moves. -/
def portSteps : List HostMove → State → Result
  | [], s => .next s
  | mv :: mvs, s =>
    match portStep mv s with
    | .next s' => portSteps mvs s'
    | .fault r => .fault r
    | .refused r => .refused r

/-- The host writes of an image, word `k` to cell `k` (70_reset_and_hazards.md R194). -/
def imageWrites : Nat → List Int → List HostMove
  | _, [] => []
  | k, v :: vs => .writeMem k v :: imageWrites (k + 1) vs

/-- Boot (70_reset_and_hazards.md R193): under reset write `MLEN`, write every cell of the image, then the parameter
writes if any (R195), then release reset with the step enabled (R197). -/
def bootMoves (image : List Int) (params : List HostMove) : List HostMove :=
  [.driveRst true, .writeMlen image.length] ++ imageWrites 0 image ++ params ++ [.driveEn true, .driveRst false]

/-- The host's two run parameters, by its convention in cells 1 and 2 (70_reset_and_hazards.md R195). -/
def paramWrites (p1 p2 : Int) : List HostMove := [.writeMem 1 p1, .writeMem 2 p2]

end Sys2Proof.Machine
end

