-- ==== Sys2Proof/Machine/Trace.lean ====
section
/-! DEFINITION. The memory accesses of one step, in order (spec/20_memory.md R57, R58). -/

namespace Sys2Proof.Machine

/-- One access that was performed. An access whose bounds check fails does not happen (20_memory.md R55). -/
inductive MemAccess where
  | read (addr : Int)
  | write (addr : Int)
  deriving DecidableEq, Repr

/-- A read and what is accessed after it; nothing is, when the read does not give a word. -/
def tracing (s : State) (addr : Int) (k : Int → List MemAccess) : List MemAccess :=
  match memRead s addr with
  | .value v => .read addr :: k v
  | .outOfRange => []
  | .unwritten => []

/-- The accesses of an ADD or MUL from its operand words on. -/
def traceArith (s : State) : List MemAccess :=
  tracing s (s.ip + 1 : Int) fun a =>
  tracing s (s.ip + 2 : Int) fun b =>
  tracing s (s.ip + 3 : Int) fun t =>
  tracing s a fun _ =>
  tracing s b fun _ =>
  if inBounds s t then [.write t] else []

/-- The accesses of the step from `s`, in order (20_memory.md R57). -/
def stepAccesses (s : State) : List MemAccess :=
  if ready s then
    tracing s s.ip fun op =>
      match decodeOpcode op with
      | some .add => traceArith s
      | some .mul => traceArith s
      | some .hlt => []
      | none => []
  else []

end Sys2Proof.Machine
end

