-- ==== Sys2Proof/Safety.lean ====
section
/-! DEFINITION. The terms claims are stated in: the invariant of every reachable state, agreement of two states on what
a program can see, and the source's machine over unbounded integers (spec/40_sequencer.md R111; spec/41_arithmetic.md R126). -/

namespace Sys2Proof.Safety

open Sys2Proof.Machine

/-- The invariant of every state reached from a legal launch (40_sequencer.md R111; 10_state.md R22, R26;
00_scope.md R5, R6). It speaks of each status on its own, so it also says what a status rules out. -/
structure Inv (s : State) : Prop where
  /-- `W >= 8`, `NMAX <= 2^(W-1) - 1` (00_scope.md R5, R6). -/
  config : s.cfg.wf
  /-- `N <= NMAX` (00_scope.md R6). -/
  length : s.mlen ≤ s.cfg.NMAX
  /-- `0 <= ip <= N` (10_state.md R22). -/
  pointer : s.ip ≤ s.mlen
  /-- Memory is in its canonical form. -/
  canonical : Memory.wf s.mem
  /-- No cell beyond the capacity, and every cell holds a `W`-bit word (00_scope.md R5, R6). -/
  cells : ∀ c ∈ s.mem, c.1 < s.cfg.NMAX ∧ inWordRange s.cfg.W c.2
  /-- The record is clear unless the core is faulted (10_state.md R26). -/
  clear : s.status ≠ .faulted → s.faultKind = .none ∧ s.faultValue = 0 ∧ s.faultAt = 0
  /-- R111 (c). -/
  running : s.status = .running → s.ip % 4 = 0
  /-- R111 (d). -/
  halted : s.status = .halted → 1 ≤ s.ip ∧ s.ip % 4 = 1 ∧ readCell s.mem (s.ip - 1) = some 99
  /-- R111 (e). -/
  faulted : s.status = .faulted → s.faultKind ≠ .none ∧ s.faultAt ≤ s.mlen ∧ s.faultAt % 4 = 0
  /-- A recorded value is a word (10_state.md R26). -/
  faultValue : inWordRange s.cfg.W s.faultValue
  /-- While `rst = 1` the CPU state has its reset values (70_reset_and_hazards.md R190). -/
  inReset : s.rst = true → s.ip = 0 ∧ s.status = .running

/-- The words `ws` stand in bounds from the address `at0` up. -/
def wordsAt (s : State) (at0 : Nat) (ws : List Int) : Prop :=
  ∀ (j : Nat) (w : Int), ws[j]? = some w → memRead s (at0 + j : Int) = .value w

/-- The state a fault leaves (60_exceptions.md R158), written out: `ipNow` is where `ip` stood at the raise. -/
def faultedState (s : State) (ipNow : Nat) (kind : FaultKind) (value : Int) : State :=
  { s with ip := ipNow, status := .faulted, faultKind := kind, faultValue := value, faultAt := s.ip }

/-- The rule of a format-Q instruction (41_arithmetic.md R120, R121), written out over the words of Memory: the faults
in the order they are checked, then the one store. `exact` is the exact integer result. -/
def QuadRule (op : Int) (exact : Int → Int → Int) (s : State) : Prop :=
  ready s → memRead s s.ip = .value op →
  (¬ inBounds s (s.ip + 1) → step s = .next (faultedState s (s.ip + 1) .memoryFault (s.ip + 1))) ∧
  ∀ a, memRead s (s.ip + 1) = .value a →
  (¬ inBounds s (s.ip + 2) → step s = .next (faultedState s (s.ip + 1) .memoryFault (s.ip + 2))) ∧
  ∀ b, memRead s (s.ip + 2) = .value b →
  (¬ inBounds s (s.ip + 3) → step s = .next (faultedState s (s.ip + 1) .memoryFault (s.ip + 3))) ∧
  ∀ t, memRead s (s.ip + 3) = .value t →
  (¬ inBounds s a → step s = .next (faultedState s (s.ip + 4) .memoryFault a)) ∧
  ∀ va, memRead s a = .value va →
  (¬ inBounds s b → step s = .next (faultedState s (s.ip + 4) .memoryFault b)) ∧
  ∀ vb, memRead s b = .value vb →
  (¬ inBounds s t → step s = .next (faultedState s (s.ip + 4) .memoryFault t)) ∧
  (inBounds s t →
    step s = .next { s with ip := s.ip + 4, mem := writeCell s.mem t.toNat (wrapW s.cfg.W (exact va vb)) })

/-- An ADD or MUL whose three operand addresses are in bounds. -/
def ArithInBounds (i : Instr) (s : State) : Prop :=
  match i with
  | .add a b t => inBounds s a ∧ inBounds s b ∧ inBounds s t
  | .mul a b t => inBounds s a ∧ inBounds s b ∧ inBounds s t
  | .hlt => False

/-- The host moves that raise `rst`. -/
def raisesRst : HostMove → Bool
  | .driveRst level => level
  | .rstMidStep _ => true
  | .driveEn _ => false
  | .writeMem _ _ => false
  | .readMem _ => false
  | .writeMlen _ => false

/-- The host moves that write `MLEN`. -/
def writesMlen : HostMove → Bool
  | .driveRst _ => false
  | .rstMidStep _ => false
  | .driveEn _ => false
  | .writeMem _ _ => false
  | .readMem _ => false
  | .writeMlen _ => true

/-- Two states that agree on all a program can see or change: everything but the capacity `NMAX`, the physical
cells at `N` and beyond (00_scope.md R6; 10_state.md R34), and whether the host wrote `MLEN`. -/
structure SameVisible (s u : State) : Prop where
  width : s.cfg.W = u.cfg.W
  ip : s.ip = u.ip
  status : s.status = u.status
  faultKind : s.faultKind = u.faultKind
  faultValue : s.faultValue = u.faultValue
  faultAt : s.faultAt = u.faultAt
  mlen : s.mlen = u.mlen
  rst : s.rst = u.rst
  en : s.en = u.en
  cells : ∀ a, a < s.mlen → readCell s.mem a = readCell u.mem a

/-- The source's dispatch: as `exec`, with the exact integer results of its unbounded arithmetic (41_arithmetic.md R126). -/
def sourceExec (i : Instr) (s : State) : Result :=
  match i with
  | .add a b t => arith (fun va vb => va + vb) a b t s
  | .mul a b t => arith (fun va vb => va * vb) a b t s
  | .hlt => execHlt s

/-- The source's machine over unbounded integers (41_arithmetic.md R126). -/
def sourceStep (s : State) : Result := stepWith sourceExec s

/-- The exact result that an instruction computes, where it computes one. -/
def exactResult (i : Instr) (s : State) : Option Int :=
  match i with
  | .add a b _ =>
    match memRead s a, memRead s b with
    | .value va, .value vb => some (va + vb)
    | _, _ => none
  | .mul a b _ =>
    match memRead s a, memRead s b with
    | .value va, .value vb => some (va * vb)
    | _, _ => none
  | .hlt => none

/-- The step from `s` does not overflow: if it executes an instruction with an exact result, that result is a word
(41_arithmetic.md R126). -/
def OverflowFree (s : State) : Prop :=
  ready s → ∀ i z, wordsAt s s.ip (encode i) → exactResult i s = some z → inWordRange s.cfg.W z

/-- Every step of the first `n` from `s` is overflow-free (41_arithmetic.md R126). -/
def OverflowFreeRun (n : Nat) (s : State) : Prop :=
  ∀ j u, j < n → iterateStep step j s = .next u → OverflowFree u

end Sys2Proof.Safety
end

