-- ==== Sys2Proof/Certificates/Slice0/Obligations.lean ====
section
/-! DEFINITION. The statements about the model, for the provers. -/

open Sys2Proof Sys2Proof.Machine Sys2Proof.Safety

/-! ### Reset and the invariant -/

/-- Raising `rst` gives `ip`, `status` and the fault record their reset values and leaves Memory and `MLEN`
(10_state.md section 8, 70_reset_and_hazards.md section 1: the spec's decision D12), from any state; a step in reset
gives the same values; and `State.reset` holds them. Nothing is said here of the values the model chose. -/
def Obligations.ResetValues : Prop :=
  (∀ s : State, portStep (.driveRst true) s = .next
    { s with ip := 0, status := .running, faultKind := .none, faultValue := 0, faultAt := 0, rst := true }) ∧
  (∀ s : State, s.rst = true → step s = .next
    { s with ip := 0, status := .running, faultKind := .none, faultValue := 0, faultAt := 0 }) ∧
  (State.reset.ip = 0 ∧ State.reset.status = .running ∧ State.reset.faultKind = .none ∧
    State.reset.faultValue = 0 ∧ State.reset.faultAt = 0)

/-- The invariant holds at `State.reset`; it rests on the model's choices there (log entries 1 and 4). -/
def Obligations.InvHoldsAtReset : Prop := Inv State.reset

/-- Every step keeps the invariant (40_sequencer.md section 4, which marks R111 as derived). -/
def Obligations.StepKeepsInv : Prop :=
  ∀ s u : State, Inv s → step s = .next u → Inv u

/-- Every host move keeps the invariant: the ownership and range rules of the ports suffice for it. -/
def Obligations.HostMovesKeepInv : Prop :=
  ∀ (mv : HostMove) (s u : State), Inv s → portStep mv s = .next u → Inv u

/-! ### The step -/

/-- When the words at `ip` decode to an instruction, the step of a ready core is `exec` of it (40_sequencer.md
section 1); nothing is added around `exec`: it advances `ip` itself, from the opcode's address. -/
def Obligations.StepRunsDecodedInstruction : Prop :=
  ∀ (s : State) (ws rest : List Int) (i : Instr),
    ready s → wordsAt s s.ip ws → decode ws = .instr i rest → step s = exec i s

/-- The gate (40_sequencer.md section 1, 70_reset_and_hazards.md section 2): a step request with `en = 0`, or when the
core is not running, changes nothing. -/
def Obligations.GateHoldsTheState : Prop :=
  ∀ s : State, s.rst = false → s.en = false ∨ s.status ≠ .running → step s = .next s

/-- With every cell of the image written, the model never stops and the image stays total: for every such state there
is exactly one next state (40_sequencer.md section 4). -/
def Obligations.TotalImageAlwaysSteps : Prop :=
  ∀ s : State, totalImage s → ∃ u, step s = .next u ∧ totalImage u

/-- The only stop of the model: an in-bounds cell that nothing has written (log entry 3); no step is refused. -/
def Obligations.OnlyUnwrittenCellsStop : Prop :=
  ∀ s : State,
    (∀ r, step s = .fault r → ∃ a, a < s.mlen ∧ readCell s.mem a = none ∧ r = .unwrittenCell a) ∧
    (∀ r, step s ≠ .refused r)

/-- The status transitions, all of them (10_state.md R23). -/
def Obligations.StatusTransitionsExact : Prop :=
  (∀ s u : State, ready s → step s = .next u →
    ((u.status = .running ↔ ∃ i, wordsAt s s.ip (encode i) ∧ ArithInBounds i s) ∧
     (u.status = .halted ↔ wordsAt s s.ip (encode .hlt)) ∧
     (u.status = .faulted → u.faultKind = .memoryFault ∨ u.faultKind = .invalidOpcode))) ∧
  (∀ s u : State, s.rst = false → s.status ≠ .running → step s = .next u →
    u.status = s.status ∧ stepAccesses s = []) ∧
  (∀ (s u : State) (mv : HostMove), raisesRst mv = false → portStep mv s = .next u → u.status = s.status) ∧
  (∀ (s u : State) (mv : HostMove), raisesRst mv = true → portStep mv s = .next u → u.status = .running) ∧
  State.reset.status = .running ∧ State.reset.ip = 0

/-- No step changes the configuration, `MLEN` or the port levels (10_state.md section 4, 40_sequencer.md section 4). -/
def Obligations.StepKeepsConfigAndLength : Prop :=
  ∀ s u : State, step s = .next u →
    u.cfg = s.cfg ∧ u.mlen = s.mlen ∧ u.mlenWritten = s.mlenWritten ∧ u.rst = s.rst ∧ u.en = s.en

/-- How far `ip` moves (40_sequencer.md section 1; the spec's decision D7 for a fault). -/
def Obligations.PointerAdvance : Prop :=
  ∀ s u : State, ready s → step s = .next u →
    (u.status = .running → u.ip = s.ip + 4) ∧
    (u.status = .halted → u.ip = s.ip + 1) ∧
    (u.status = .faulted →
      (¬ inBounds s s.ip → u.ip = s.ip) ∧
      (inBounds s s.ip → u.faultKind = .invalidOpcode ∨ ¬ inBounds s (s.ip + 3) → u.ip = s.ip + 1) ∧
      (u.faultKind = .memoryFault → inBounds s (s.ip + 3) → u.ip = s.ip + 4))

/-- After the stop nothing changes until reset: any number of step requests, and any host moves that do not raise
`rst`, leave everything but the level of `en` (40_sequencer.md section 4, R111 (f), marked derived). -/
def Obligations.StoppedUntilReset : Prop :=
  ∀ s : State, s.rst = false → s.status ≠ .running →
    (∀ n, iterateStep step n s = .next s) ∧
    (∀ mvs : List HostMove, (∀ mv ∈ mvs, raisesRst mv = false) →
      ∃ level, portSteps mvs s = .next { s with en := level })

/-- From a state with `ip` at most `N`, at most `floor(N/4) + 1` steps reach the stop, and further step requests leave
it (40_sequencer.md section 4, R107, marked derived). -/
def Obligations.RunStopsWithinBound : Prop :=
  ∀ s : State, Inv s → totalImage s → ready s →
    ∃ u, run s = .next u ∧ u.status ≠ .running ∧ ∀ m, iterateStep step (s.mlen / 4 + 1 + m) s = .next u

/-! ### The instructions -/

/-- ADD, whole: operands, encoding, every fault in the order it is checked, and the store (41_arithmetic.md R120). -/
def Obligations.AddFollowsItsRule : Prop := ∀ s : State, QuadRule 1 (fun va vb => va + vb) s

/-- MUL, whole (41_arithmetic.md R121). -/
def Obligations.MulFollowsItsRule : Prop := ∀ s : State, QuadRule 2 (fun va vb => va * vb) s

/-- ADD completes whenever both sources hold a word and the target is in bounds (41_arithmetic.md section 2). -/
def Obligations.AddCompletes : Prop :=
  ∀ (s : State) (a b t va vb : Int), memRead s a = .value va → memRead s b = .value vb → inBounds s t →
    exec (.add a b t) s =
      .next { s with ip := s.ip + 4, mem := writeCell s.mem t.toNat (wrapW s.cfg.W (va + vb)) }

/-- MUL completes whenever both sources hold a word and the target is in bounds (41_arithmetic.md section 3). -/
def Obligations.MulCompletes : Prop :=
  ∀ (s : State) (a b t va vb : Int), memRead s a = .value va → memRead s b = .value vb → inBounds s t →
    exec (.mul a b t) s =
      .next { s with ip := s.ip + 4, mem := writeCell s.mem t.toNat (wrapW s.cfg.W (va * vb)) }

/-- HLT, whole: it completes in every state, and the step that runs it accesses nothing but its opcode
(42_halt.md R140). -/
def Obligations.HltFollowsItsRule : Prop :=
  (∀ s : State, exec .hlt s = .next { s with ip := s.ip + 1, status := .halted }) ∧
  (∀ s : State, ready s → memRead s s.ip = .value 99 →
    step s = .next { s with ip := s.ip + 1, status := .halted } ∧ stepAccesses s = [.read s.ip] ∧
    haltedFlag s = false ∧ haltedFlag { s with ip := s.ip + 1, status := .halted } = true)

/-- The frame of ADD, MUL and HLT. ADD and MUL store to cell `t` alone, and to none when they fault; the status and the
fault record change only in a fault. HLT changes `ip` and `status` alone. -/
def Obligations.InstructionFrames : Prop :=
  (∀ (s u : State) (a b t : Int), exec (.add a b t) s = .next u ∨ exec (.mul a b t) s = .next u →
    u.cfg = s.cfg ∧ u.mlen = s.mlen ∧ u.mlenWritten = s.mlenWritten ∧ u.rst = s.rst ∧ u.en = s.en ∧
    (∀ addr : Nat, (addr : Int) ≠ t → readCell u.mem addr = readCell s.mem addr) ∧
    ((u.status = s.status ∧ u.faultKind = s.faultKind ∧ u.faultValue = s.faultValue ∧ u.faultAt = s.faultAt) ∨
      (u.status = .faulted ∧ u.faultKind = .memoryFault ∧ u.faultAt = s.ip ∧ u.mem = s.mem ∧
        ¬ (inBounds s a ∧ inBounds s b ∧ inBounds s t)))) ∧
  (∀ s u : State, exec .hlt s = .next u →
    u.cfg = s.cfg ∧ u.mlen = s.mlen ∧ u.mlenWritten = s.mlenWritten ∧ u.rst = s.rst ∧ u.en = s.en ∧
    u.faultKind = s.faultKind ∧ u.faultValue = s.faultValue ∧ u.faultAt = s.faultAt ∧ ∀ addr : Nat, readCell u.mem addr = readCell s.mem addr)

/-- The storing instruction is not affected by its own store, and whatever is fetched next sees it
(20_memory.md R60). The words of the instruction may be among those it stores to. -/
def Obligations.StoreSeenByNextFetch : Prop :=
  ∀ (s u : State) (a b t : Int) (i : Instr), i = .add a b t ∨ i = .mul a b t →
    ready s → wordsAt s s.ip (encode i) → step s = .next u → u.status = .running →
    u.ip = s.ip + 4 ∧
    ∃ z, exactResult i s = some z ∧ memRead u t = .value (wrapW s.cfg.W z) ∧
      (t = s.ip + 4 → memRead u u.ip = .value (wrapW s.cfg.W z)) ∧
      ∀ addr, addr ≠ t → memRead u addr = memRead s addr

/-- Every overlap of sources and target reads first and writes last (41_arithmetic.md section 5, marked derived): one
cell as both sources and target is doubled, or squared. -/
def Obligations.AliasedOperandsReadFirst : Prop :=
  ∀ (s : State) (a v : Int), memRead s a = .value v →
    exec (.add a a a) s =
      .next { s with ip := s.ip + 4, mem := writeCell s.mem a.toNat (wrapW s.cfg.W (2 * v)) } ∧
    exec (.mul a a a) s =
      .next { s with ip := s.ip + 4, mem := writeCell s.mem a.toNat (wrapW s.cfg.W (v ^ 2)) }

/-! ### Arithmetic -/

/-- `wrap_W` gives the one integer of the word range congruent to its argument (00_scope.md section 5). -/
def Obligations.WrapIsTheUniqueWord : Prop :=
  ∀ (W : Nat) (z : Int), 1 ≤ W →
    inWordRange W (wrapW W z) ∧ (2 : Int) ^ W ∣ wrapW W z - z ∧
    ∀ r : Int, inWordRange W r → (2 : Int) ^ W ∣ r - z → r = wrapW W z

/-- Addition, with both overflows (41_arithmetic.md section 4; the spec's decision D2). -/
def Obligations.AdditionOverflowRule : Prop :=
  ∀ (W : Nat) (va vb : Int), 1 ≤ W → inWordRange W va → inWordRange W vb →
    (-(2 : Int) ^ W ≤ va + vb ∧ va + vb ≤ (2 : Int) ^ W - 2) ∧
    (inWordRange W (va + vb) → aluAdd W va vb = va + vb) ∧
    (va + vb > (2 : Int) ^ (W - 1) - 1 → aluAdd W va vb = va + vb - (2 : Int) ^ W) ∧
    (va + vb < -(2 : Int) ^ (W - 1) → aluAdd W va vb = va + vb + (2 : Int) ^ W)

/-- Multiplication: the bounds of the exact product, and the low `W` bits of it kept (41_arithmetic.md section 4; the
spec's decision D2). -/
def Obligations.MultiplicationOverflowRule : Prop :=
  ∀ (W : Nat) (va vb : Int), 1 ≤ W → inWordRange W va → inWordRange W vb →
    (-(2 : Int) ^ (2 * W - 2) + (2 : Int) ^ (W - 1) ≤ va * vb ∧ va * vb ≤ (2 : Int) ^ (2 * W - 2)) ∧
    (inWordRange W (va * vb) → aluMul W va vb = va * vb) ∧
    (inWordRange W (aluMul W va vb) ∧ (2 : Int) ^ W ∣ aluMul W va vb - va * vb)

/-- A plain `W`-bit adder and multiplier give the stored results, and reading the operands as unsigned gives the same
(41_arithmetic.md section 4). -/
def Obligations.PlainWordAluAgrees : Prop :=
  ∀ (W : Nat) (va vb : Int),
    aluAdd W va vb = (BitVec.ofInt W va + BitVec.ofInt W vb).toInt ∧
    aluMul W va vb = (BitVec.ofInt W va * BitVec.ofInt W vb).toInt ∧
    aluAdd W (va % 2 ^ W) (vb % 2 ^ W) = aluAdd W va vb ∧
    aluMul W (va % 2 ^ W) (vb % 2 ^ W) = aluMul W va vb

/-- On a run that does not overflow, this machine and the source's machine over unbounded integers are in equal states
after every number of steps (41_arithmetic.md section 4, R126, marked derived). -/
def Obligations.OverflowFreeRunMatchesSource : Prop :=
  ∀ (n : Nat) (s : State), s.cfg.wf → OverflowFreeRun n s →
    iterateStep sourceStep n s = iterateStep step n s

/-! ### Faults -/

/-- Any opcode word but 1, 2 and 99 faults, whatever follows it (60_exceptions.md R153). -/
def Obligations.InvalidOpcodeFault : Prop :=
  ∀ (s : State) (op : Int), ready s → memRead s s.ip = .value op → op ≠ 1 ∧ op ≠ 2 ∧ op ≠ 99 →
    step s = .next (faultedState s (s.ip + 1) .invalidOpcode op) ∧ stepAccesses s = [.read s.ip]

/-- `MemoryFault` on the rest of an ADD or MUL (60_exceptions.md R152): (i) an instruction that straddles the end faults
at exactly `N`; (ii) an operand out of bounds is reported. -/
def Obligations.ArithmeticMemoryFaults : Prop :=
  ∀ (s : State) (op : Int), ready s → totalImage s → op = 1 ∨ op = 2 →
    (memRead s s.ip = .value op → ¬ inBounds s (s.ip + 3) →
      step s = .next (faultedState s (s.ip + 1) .memoryFault s.mlen)) ∧
    (∀ a b t : Int, wordsAt s s.ip [op, a, b, t] → ¬ (inBounds s a ∧ inBounds s b ∧ inBounds s t) →
      ∃ addr : Int, (addr = a ∨ addr = b ∨ addr = t) ∧ ¬ inBounds s addr ∧
        step s = .next (faultedState s (s.ip + 4) .memoryFault addr))

/-- Running off the end: in a state that meets the invariant the opcode fetch faults exactly when `ip = N`, and then
with `N` recorded (60_exceptions.md section 1, R151, marked derived). -/
def Obligations.OpcodeFetchPastTheEnd : Prop :=
  ∀ s : State, Inv s → ready s →
    (¬ inBounds s s.ip ↔ s.ip = s.mlen) ∧
    (s.ip = s.mlen → step s = .next (faultedState s s.mlen .memoryFault s.mlen))

/-- Faults are precise (60_exceptions.md sections 3 and 4, the spec's decisions D6 and D7 in the record): a step that
faults writes no Memory, and the record locates and explains it. -/
def Obligations.FaultsArePrecise : Prop :=
  ∀ s u : State, ready s → step s = .next u → u.status = .faulted →
    u = faultedState s u.ip u.faultKind u.faultValue ∧
    ((u.faultKind = .memoryFault ∧ ¬ inBounds s u.faultValue) ∨
      (u.faultKind = .invalidOpcode ∧ memRead s s.ip = .value u.faultValue ∧
        decodeOpcode u.faultValue = none ∧ u.ip = s.ip + 1))

/-! ### Memory -/

/-- The two memory primitives (00_scope.md R10, R11): each checks the bounds; a failed check raises `MemoryFault(addr)`
and does nothing else; a read changes nothing and a write replaces the cell. -/
def Obligations.MemoryPrimitives : Prop :=
  ∀ (s : State) (ip0 : Nat) (addr : Int) (v w : Int) (k : Int → Result),
    (¬ (0 ≤ addr ∧ addr < s.mlen) →
      reading s ip0 addr k = .next
        { s with status := .faulted, faultKind := .memoryFault, faultValue := addr, faultAt := ip0 } ∧
      storing s ip0 addr v = .next
        { s with status := .faulted, faultKind := .memoryFault, faultValue := addr, faultAt := ip0 }) ∧
    (0 ≤ addr ∧ addr < s.mlen →
      (readCell s.mem addr.toNat = some w → reading s ip0 addr k = k w) ∧
      storing s ip0 addr v = .next { s with mem := writeCell s.mem addr.toNat v })

/-- A write replaces the whole cell, a later read returns it, and no other cell changes (20_memory.md R54). -/
def Obligations.ReadReturnsLastWrite : Prop :=
  ∀ (s u : State) (ip0 : Nat) (addr : Int) (v : Int), inBounds s addr → storing s ip0 addr v = .next u →
    memRead u addr = .value v ∧ (∀ k : Int → Result, reading u ip0 addr k = k v) ∧ (∀ other, other ≠ addr → memRead u other = memRead s other) ∧
    (Memory.wf s.mem → Memory.wf u.mem) ∧
    ∀ (w : Int) (u' : State), storing u ip0 addr w = .next u' → memRead u' addr = .value w

/-- The accesses of a step (20_memory.md section 2, R57, marked derived): six reads and then one write for an ADD or MUL
that completes, the opcode alone for HLT and for an invalid opcode, and no write in a step that faults. -/
def Obligations.AccessesPerStep : Prop :=
  ∀ s u : State, ready s → step s = .next u →
    (u.status = .running → ∃ op a b t : Int, (op = 1 ∨ op = 2) ∧ wordsAt s s.ip [op, a, b, t] ∧
      stepAccesses s = [.read s.ip, .read (s.ip + 1), .read (s.ip + 2), .read (s.ip + 3), .read a, .read b, .write t]) ∧
    (u.status = .halted → stepAccesses s = [.read s.ip]) ∧
    (u.faultKind = .invalidOpcode ∧ u.status = .faulted → stepAccesses s = [.read s.ip]) ∧
    (u.status = .faulted → ∀ addr, MemAccess.write addr ∉ stepAccesses s)

/-- The list of accesses is the whole truth: a step's outcome depends on Memory only through the cells it lists as
read, and Memory changes only in the cell it lists as written. -/
def Obligations.StepDependsOnListedReads : Prop :=
  ∀ (s u : State) (m : Memory),
    (∀ addr, MemAccess.read addr ∈ stepAccesses s → readCell m addr.toNat = readCell s.mem addr.toNat) →
    step s = .next u →
    ∃ u', step { s with mem := m } = .next u' ∧ u' = { u with mem := u'.mem } ∧
      ∀ addr : Nat, readCell u'.mem addr =
        if MemAccess.write addr ∈ stepAccesses s then readCell u.mem addr else readCell m addr

/-- A run is a function of the width, the length and the cells below `N`: two states that agree on these and on the CPU
state, but not on the capacity or on the physical cells beyond `N`, run alike for every number of steps
(00_scope.md section 4, 10_state.md section 8, 40_sequencer.md section 4). -/
def Obligations.CellsBeyondLengthDoNotMatter : Prop :=
  ∀ (n : Nat) (s s' : State), SameVisible s s' →
    (∀ u, iterateStep step n s = .next u → ∃ u', iterateStep step n s' = .next u' ∧ SameVisible u u') ∧
    (∀ r, iterateStep step n s = .fault r → iterateStep step n s' = .fault r)

/-! ### Encoding -/

/-- Decoding the bits of an instruction gives it back, at every width and with every operand at every value its word
admits. The packing of the words into one number is the model's choice (log entry 14, DEDUCED). -/
def Obligations.DecodeEncodeBitsAgree : Prop :=
  ∀ (W nbits : Nat) (i : Instr), 8 ≤ W → WellFormed W i → W * lengthWords i ≤ nbits →
    decodeBits W nbits (encodeBits W i) = some i

/-- The decoder accepts the words of instructions and nothing else (30_encoding.md sections 1 and 2). -/
def Obligations.DecodeAcceptsOnlyEncodings : Prop :=
  ∀ (ws rest : List Int) (i : Instr), decode ws = .instr i rest ↔ ws = encode i ++ rest

/-- The whole opcode word is compared: 1, 2, 99, or invalid (30_encoding.md R87). -/
def Obligations.WholeOpcodeWordCompared : Prop :=
  ∀ (op : Int) (ws : List Int),
    (decode (op :: ws) = .invalidOpcode op ↔ op ≠ 1 ∧ op ≠ 2 ∧ op ≠ 99) ∧
    (decodeOpcode op = some .add ↔ op = 1) ∧ (decodeOpcode op = some .mul ↔ op = 2) ∧
    (decodeOpcode op = some .hlt ↔ op = 99)

/-- Words written out from 30_encoding.md section 2 (hex at `W = 32`) decode to what they stand for. The spec gives the
opcode words; that an instruction of four words is one number of 128 bits, its first word least significant, is the
model's choice (log entry 14, DEDUCED), and the width 32 of `decodeTableWord` is log entry 1. -/
def Obligations.SampleWordsDecode : Prop :=
  decodeTableWord 128 0x00000007_00000006_00000005_00000001 = some (.add 5 6 7) ∧
  decodeTableWord 128 0x00000000_FFFFFFFF_80000000_00000002 = some (.mul (-2147483648) (-1) 0) ∧
  decodeTableWord 32 0x00000063 = some .hlt ∧
  decodeTableWord 32 0x00000003 = none ∧ decodeTableWord 32 0x000003E9 = none ∧
  decodeTableWord 32 0x00000101 = none ∧ decodeTableWord 32 0xFFFFFFFF = none

/-- An instruction placed where the core fetches is what the next step runs; an invalid one faults. (How the model
loads it is log entry 11, and how the words are packed into the number `w` log entry 14: the model's choices.) -/
def Obligations.PlacedInstructionRuns : Prop :=
  ∀ (s : State) (nbits w : Nat),
    (∀ i, decodeBits s.cfg.W nbits w = some i →
      step (s.withFetchWord nbits w) = exec i (s.withFetchWord nbits w)) ∧
    (decodeBits s.cfg.W nbits w = none → ∃ op, decodeOpcode op = none ∧
      step (s.withFetchWord nbits w) =
        .next (faultedState (s.withFetchWord nbits w) (s.ip + 1) .invalidOpcode op))

/-! ### The host's side -/

/-- Who may access Memory when (70_reset_and_hazards.md section 2, the spec's decision D11): with `rst = 0` host writes
of Memory and of `MLEN` change nothing; reads give data only after the stop. -/
def Obligations.HostAccessIsGated : Prop :=
  ∀ (s : State) (addr v : Int), s.rst = false →
    portStep (.writeMem addr v) s = .next s ∧ portStep (.writeMlen v) s = .next s ∧
    portStep (.readMem addr) s = .next s ∧
    (s.status = .running → portRead addr s = none) ∧
    (s.status ≠ .running → inBounds s addr → portRead addr s = readCell s.mem addr.toNat) ∧
    (¬ inBounds s addr → portRead addr s = none)

/-- Boot, from any state (70_reset_and_hazards.md section 2): the image stands in the cells from 0 up, with the host's
two parameters in cells 1 and 2 where it writes them, and the core is ready at `ip = 0` with a clear record. The step
enable at the end is the model's choice of host (log entry 5). -/
def Obligations.BootLoadsTheImage : Prop :=
  ∀ (s : State) (image : List Int), image.length ≤ s.cfg.NMAX → (∀ v ∈ image, inWordRange s.cfg.W v) →
    (∃ u, portSteps (bootMoves image []) s = .next u ∧ u.cfg = s.cfg ∧ ready u ∧ u.ip = 0 ∧ u.faultKind = .none ∧
      u.faultValue = 0 ∧ u.faultAt = 0 ∧ u.mlen = image.length ∧ portReadMlen u = some (image.length : Int) ∧
      ∀ (k : Nat) (v : Int), image[k]? = some v → memRead u k = .value v) ∧
    (∀ p1 p2 : Int, inWordRange s.cfg.W p1 → inWordRange s.cfg.W p2 → 3 ≤ image.length →
      ∃ u, portSteps (bootMoves image (paramWrites p1 p2)) s = .next u ∧ u.cfg = s.cfg ∧ ready u ∧ u.ip = 0 ∧
        u.mlen = image.length ∧ memRead u 1 = .value p1 ∧ memRead u 2 = .value p2 ∧
        ∀ (k : Nat) (v : Int), k ≠ 1 → k ≠ 2 → image[k]? = some v → memRead u k = .value v)

/-- The host reads back the `MLEN` it wrote (10_state.md section 7, R33, marked derived): the length last accepted under
reset, unchanged by any step and by any other move, and no value while none was ever written. That it is readable at
any time is the model's choice (log entry 15): the spec lists no port for the read. -/
def Obligations.LengthReadsBackAsWritten : Prop :=
  (∀ (s u : State) (n : Int), s.rst = true → portStep (.writeMlen n) s = .next u →
    portReadMlen u = some n ∧ 0 ≤ n ∧ n ≤ s.cfg.NMAX) ∧
  (∀ s u : State, step s = .next u → portReadMlen u = portReadMlen s) ∧
  (∀ (mv : HostMove) (s u : State), writesMlen mv = false ∨ s.rst = false → portStep mv s = .next u →
    portReadMlen u = portReadMlen s) ∧
  (∀ s : State, s.mlenWritten = false → portReadMlen s = none)

/-- A run is a function of the width and the image alone (40_sequencer.md section 4, 60_exceptions.md section 4): the
same image booted into any two cores of one width, whatever they held before, gives runs that agree at every step. -/
def Obligations.RunIsFunctionOfImage : Prop :=
  ∀ (s s' u u' : State) (image : List Int), s.cfg.W = s'.cfg.W →
    image.length ≤ s.cfg.NMAX → image.length ≤ s'.cfg.NMAX → (∀ v ∈ image, inWordRange s.cfg.W v) →
    portSteps (bootMoves image []) s = .next u → portSteps (bootMoves image []) s' = .next u' →
    SameVisible u u' ∧
    ∀ n t, iterateStep step n u = .next t → ∃ t', iterateStep step n u' = .next t' ∧ SameVisible t t'

/-- The model's refusals of host moves (log entry 7, after the spec's U5 and U6): a release with `MLEN` never written or
over an image with an unwritten cell, a value that is no word, a length above the capacity. -/
def Obligations.HostMovesRefused : Prop :=
  ∀ s : State, s.rst = true →
    (s.mlenWritten = false → portStep (.driveRst false) s = .refused .lengthNeverWritten) ∧
    (s.mlenWritten = true → ¬ totalImage s → portStep (.driveRst false) s = .refused .partialImage) ∧
    (s.mlenWritten = true → totalImage s → portStep (.driveRst false) s = .next { s with rst := false }) ∧
    (∀ addr v : Int, ¬ inWordRange s.cfg.W v → portStep (.writeMem addr v) s = .refused .valueOutOfWordRange) ∧
    (∀ n : Int, ¬ (0 ≤ n ∧ n ≤ s.cfg.NMAX) → portStep (.writeMlen n) s = .refused .lengthOutOfRange)

/-- A reset that lands in a step leaves Memory with or without the step's write, and nothing between
(70_reset_and_hazards.md section 1, the spec's decision D19). -/
def Obligations.MidStepResetHasTwoOutcomes : Prop :=
  ∀ s u : State, ready s → step s = .next u →
    portStep (.rstMidStep true) s = .next
      { s with ip := 0, status := .running, faultKind := .none, faultValue := 0, faultAt := 0, rst := true, mem := u.mem } ∧
    portStep (.rstMidStep false) s = .next
      { s with ip := 0, status := .running, faultKind := .none, faultValue := 0, faultAt := 0, rst := true }

/-- Exactly one of `running`, `halted`, `faulted` is 1, and the codes are those of 10_state.md sections 3 and 4 (the
spec's decisions D5 and D6), `0b11` never among them. -/
def Obligations.FlagsAndCodes : Prop :=
  (∀ s : State,
    (runningFlag s, haltedFlag s, faultedFlag s) ∈ [(true, false, false), (false, true, false), (false, false, true)]) ∧
  (statusCode .running, statusCode .halted, statusCode .faulted) = (0#2, 1#2, 2#2) ∧
  (faultKindCode .none, faultKindCode .memoryFault, faultKindCode .invalidOpcode) = (0#2, 1#2, 2#2)

/-- The output ports lose nothing: in a state that meets the invariant each `W`-bit port reads back as the register it
shows (10_state.md section 7). -/
def Obligations.OutputPortsShowTheState : Prop :=
  ∀ s : State, Inv s →
    ((outputs s).ip.toNat = s.ip ∧ (outputs s).ip.toInt = s.ip) ∧ (outputs s).faultValue.toInt = s.faultValue ∧
    ((outputs s).faultAt.toNat = s.faultAt ∧ (outputs s).faultAt.toInt = s.faultAt)
end

