-- ==== Sys2Proof/Laws/State.lean ====
section
/-! SUPPORT. One lemma per field per named update of the state, each true by unfolding the update. -/

namespace Sys2Proof.Laws

open Sys2Proof.Machine

@[simp] theorem setIp_cfg (n : Nat) (s : State) : (setIp n s).cfg = s.cfg := rfl
@[simp] theorem setIp_ip (n : Nat) (s : State) : (setIp n s).ip = n := rfl
@[simp] theorem setIp_status (n : Nat) (s : State) : (setIp n s).status = s.status := rfl
@[simp] theorem setIp_faultKind (n : Nat) (s : State) : (setIp n s).faultKind = s.faultKind := rfl
@[simp] theorem setIp_faultValue (n : Nat) (s : State) : (setIp n s).faultValue = s.faultValue := rfl
@[simp] theorem setIp_faultAt (n : Nat) (s : State) : (setIp n s).faultAt = s.faultAt := rfl
@[simp] theorem setIp_mlen (n : Nat) (s : State) : (setIp n s).mlen = s.mlen := rfl
@[simp] theorem setIp_mem (n : Nat) (s : State) : (setIp n s).mem = s.mem := rfl
@[simp] theorem setIp_rst (n : Nat) (s : State) : (setIp n s).rst = s.rst := rfl
@[simp] theorem setIp_en (n : Nat) (s : State) : (setIp n s).en = s.en := rfl
@[simp] theorem setIp_mlenWritten (n : Nat) (s : State) : (setIp n s).mlenWritten = s.mlenWritten := rfl

@[simp] theorem setCell_cfg (a : Nat) (v : Int) (s : State) : (setCell a v s).cfg = s.cfg := rfl
@[simp] theorem setCell_ip (a : Nat) (v : Int) (s : State) : (setCell a v s).ip = s.ip := rfl
@[simp] theorem setCell_status (a : Nat) (v : Int) (s : State) : (setCell a v s).status = s.status := rfl
@[simp] theorem setCell_faultKind (a : Nat) (v : Int) (s : State) : (setCell a v s).faultKind = s.faultKind := rfl
@[simp] theorem setCell_faultValue (a : Nat) (v : Int) (s : State) : (setCell a v s).faultValue = s.faultValue := rfl
@[simp] theorem setCell_faultAt (a : Nat) (v : Int) (s : State) : (setCell a v s).faultAt = s.faultAt := rfl
@[simp] theorem setCell_mlen (a : Nat) (v : Int) (s : State) : (setCell a v s).mlen = s.mlen := rfl
@[simp] theorem setCell_mem (a : Nat) (v : Int) (s : State) : (setCell a v s).mem = writeCell s.mem a v := rfl
@[simp] theorem setCell_rst (a : Nat) (v : Int) (s : State) : (setCell a v s).rst = s.rst := rfl
@[simp] theorem setCell_en (a : Nat) (v : Int) (s : State) : (setCell a v s).en = s.en := rfl
@[simp] theorem setCell_mlenWritten (a : Nat) (v : Int) (s : State) : (setCell a v s).mlenWritten = s.mlenWritten := rfl

@[simp] theorem setLength_cfg (n : Nat) (s : State) : (setLength n s).cfg = s.cfg := rfl
@[simp] theorem setLength_ip (n : Nat) (s : State) : (setLength n s).ip = s.ip := rfl
@[simp] theorem setLength_status (n : Nat) (s : State) : (setLength n s).status = s.status := rfl
@[simp] theorem setLength_faultKind (n : Nat) (s : State) : (setLength n s).faultKind = s.faultKind := rfl
@[simp] theorem setLength_faultValue (n : Nat) (s : State) : (setLength n s).faultValue = s.faultValue := rfl
@[simp] theorem setLength_faultAt (n : Nat) (s : State) : (setLength n s).faultAt = s.faultAt := rfl
@[simp] theorem setLength_mlen (n : Nat) (s : State) : (setLength n s).mlen = n := rfl
@[simp] theorem setLength_mem (n : Nat) (s : State) : (setLength n s).mem = s.mem := rfl
@[simp] theorem setLength_rst (n : Nat) (s : State) : (setLength n s).rst = s.rst := rfl
@[simp] theorem setLength_en (n : Nat) (s : State) : (setLength n s).en = s.en := rfl
@[simp] theorem setLength_mlenWritten (n : Nat) (s : State) : (setLength n s).mlenWritten = true := rfl

@[simp] theorem setStatus_cfg (st : Status) (s : State) : (setStatus st s).cfg = s.cfg := rfl
@[simp] theorem setStatus_ip (st : Status) (s : State) : (setStatus st s).ip = s.ip := rfl
@[simp] theorem setStatus_status (st : Status) (s : State) : (setStatus st s).status = st := rfl
@[simp] theorem setStatus_faultKind (st : Status) (s : State) : (setStatus st s).faultKind = s.faultKind := rfl
@[simp] theorem setStatus_faultValue (st : Status) (s : State) : (setStatus st s).faultValue = s.faultValue := rfl
@[simp] theorem setStatus_faultAt (st : Status) (s : State) : (setStatus st s).faultAt = s.faultAt := rfl
@[simp] theorem setStatus_mlen (st : Status) (s : State) : (setStatus st s).mlen = s.mlen := rfl
@[simp] theorem setStatus_mem (st : Status) (s : State) : (setStatus st s).mem = s.mem := rfl
@[simp] theorem setStatus_rst (st : Status) (s : State) : (setStatus st s).rst = s.rst := rfl
@[simp] theorem setStatus_en (st : Status) (s : State) : (setStatus st s).en = s.en := rfl
@[simp] theorem setStatus_mlenWritten (st : Status) (s : State) : (setStatus st s).mlenWritten = s.mlenWritten := rfl

@[simp] theorem takeFault_cfg (k : FaultKind) (v : Int) (n : Nat) (s : State) : (takeFault k v n s).cfg = s.cfg := rfl
@[simp] theorem takeFault_ip (k : FaultKind) (v : Int) (n : Nat) (s : State) : (takeFault k v n s).ip = s.ip := rfl
@[simp] theorem takeFault_status (k : FaultKind) (v : Int) (n : Nat) (s : State) : (takeFault k v n s).status = .faulted := rfl
@[simp] theorem takeFault_faultKind (k : FaultKind) (v : Int) (n : Nat) (s : State) : (takeFault k v n s).faultKind = k := rfl
@[simp] theorem takeFault_faultValue (k : FaultKind) (v : Int) (n : Nat) (s : State) : (takeFault k v n s).faultValue = v := rfl
@[simp] theorem takeFault_faultAt (k : FaultKind) (v : Int) (n : Nat) (s : State) : (takeFault k v n s).faultAt = n := rfl
@[simp] theorem takeFault_mlen (k : FaultKind) (v : Int) (n : Nat) (s : State) : (takeFault k v n s).mlen = s.mlen := rfl
@[simp] theorem takeFault_mem (k : FaultKind) (v : Int) (n : Nat) (s : State) : (takeFault k v n s).mem = s.mem := rfl
@[simp] theorem takeFault_rst (k : FaultKind) (v : Int) (n : Nat) (s : State) : (takeFault k v n s).rst = s.rst := rfl
@[simp] theorem takeFault_en (k : FaultKind) (v : Int) (n : Nat) (s : State) : (takeFault k v n s).en = s.en := rfl
@[simp] theorem takeFault_mlenWritten (k : FaultKind) (v : Int) (n : Nat) (s : State) : (takeFault k v n s).mlenWritten = s.mlenWritten := rfl

@[simp] theorem cpuReset_cfg (s : State) : (cpuReset s).cfg = s.cfg := rfl
@[simp] theorem cpuReset_ip (s : State) : (cpuReset s).ip = 0 := rfl
@[simp] theorem cpuReset_status (s : State) : (cpuReset s).status = .running := rfl
@[simp] theorem cpuReset_faultKind (s : State) : (cpuReset s).faultKind = .none := rfl
@[simp] theorem cpuReset_faultValue (s : State) : (cpuReset s).faultValue = 0 := rfl
@[simp] theorem cpuReset_faultAt (s : State) : (cpuReset s).faultAt = 0 := rfl
@[simp] theorem cpuReset_mlen (s : State) : (cpuReset s).mlen = s.mlen := rfl
@[simp] theorem cpuReset_mem (s : State) : (cpuReset s).mem = s.mem := rfl
@[simp] theorem cpuReset_rst (s : State) : (cpuReset s).rst = s.rst := rfl
@[simp] theorem cpuReset_en (s : State) : (cpuReset s).en = s.en := rfl
@[simp] theorem cpuReset_mlenWritten (s : State) : (cpuReset s).mlenWritten = s.mlenWritten := rfl

@[simp] theorem raiseRst_cfg (s : State) : (raiseRst s).cfg = s.cfg := rfl
@[simp] theorem raiseRst_ip (s : State) : (raiseRst s).ip = 0 := rfl
@[simp] theorem raiseRst_status (s : State) : (raiseRst s).status = .running := rfl
@[simp] theorem raiseRst_faultKind (s : State) : (raiseRst s).faultKind = .none := rfl
@[simp] theorem raiseRst_faultValue (s : State) : (raiseRst s).faultValue = 0 := rfl
@[simp] theorem raiseRst_faultAt (s : State) : (raiseRst s).faultAt = 0 := rfl
@[simp] theorem raiseRst_mlen (s : State) : (raiseRst s).mlen = s.mlen := rfl
@[simp] theorem raiseRst_mem (s : State) : (raiseRst s).mem = s.mem := rfl
@[simp] theorem raiseRst_rst (s : State) : (raiseRst s).rst = true := rfl
@[simp] theorem raiseRst_en (s : State) : (raiseRst s).en = s.en := rfl
@[simp] theorem raiseRst_mlenWritten (s : State) : (raiseRst s).mlenWritten = s.mlenWritten := rfl

end Sys2Proof.Laws
end

