-- ==== Sys2Proof/Laws/Memory.lean ====
section
/-! SUPPORT. Memory as a list of cells: reading after writing, and the canonical form. -/

namespace Sys2Proof.Laws

open Sys2Proof.Machine

theorem readCell_writeCell_same (m : Memory) (a : Nat) (v : Int) : readCell (writeCell m a v) a = some v := by
  induction m with
  | nil => simp [writeCell, readCell]
  | cons c m ih =>
    obtain ⟨b, w⟩ := c
    unfold writeCell
    split_ifs with h1 h2
    · simp [readCell, ih, Nat.ne_of_lt h1]
    · simp [readCell]
    · simp [readCell]

theorem readCell_writeCell_other (m : Memory) (a b : Nat) (v : Int) (h : b ≠ a) :
    readCell (writeCell m a v) b = readCell m b := by
  induction m with
  | nil => simp [writeCell, readCell, unlistedCell, Ne.symm h]
  | cons c m ih =>
    obtain ⟨d, w⟩ := c
    unfold writeCell
    split_ifs with h1 h2
    · simp [readCell, ih]
    · subst h2
      simp [readCell, Ne.symm h]
    · simp [readCell, Ne.symm h]

theorem readCell_writeCell (m : Memory) (a b : Nat) (v : Int) :
    readCell (writeCell m a v) b = if b = a then some v else readCell m b := by
  split_ifs with h
  · rw [h, readCell_writeCell_same]
  · exact readCell_writeCell_other m a b v h

/-- A word read from a cell stands in the list under that address. -/
theorem mem_of_readCell {m : Memory} {a : Nat} {v : Int} (h : readCell m a = some v) : (a, v) ∈ m := by
  induction m with
  | nil => simp [readCell, unlistedCell] at h
  | cons c m ih =>
    obtain ⟨b, w⟩ := c
    unfold readCell at h
    split_ifs at h with hb
    · simp_all
    · exact List.mem_cons_of_mem _ (ih h)

/-- A write adds no cell but its own. -/
theorem mem_writeCell {m : Memory} {a : Nat} {v : Int} {c : Nat × Int} (h : c ∈ writeCell m a v) :
    c = (a, v) ∨ c ∈ m := by
  induction m with
  | nil => simpa [writeCell] using h
  | cons d m ih =>
    obtain ⟨b, w⟩ := d
    unfold writeCell at h
    split_ifs at h <;> simp only [List.mem_cons] at h ⊢
    · rcases h with h | h
      · exact .inr (.inl h)
      · rcases ih h with h | h
        · exact .inl h
        · exact .inr (.inr h)
    · rcases h with h | h
      · exact .inl h
      · exact .inr (.inr h)
    · exact h

/-- Writing a cell keeps the canonical form. -/
theorem writeCell_wf {m : Memory} (a : Nat) (v : Int) (h : Memory.wf m) : Memory.wf (writeCell m a v) := by
  induction m with
  | nil => simp [writeCell, Memory.wf]
  | cons d m ih =>
    obtain ⟨b, w⟩ := d
    obtain ⟨hb, hm⟩ := List.pairwise_cons.1 h
    unfold writeCell
    split_ifs with h1 h2
    · refine List.pairwise_cons.2 ⟨fun c hc => ?_, ih hm⟩
      rcases mem_writeCell hc with rfl | hc
      · exact h1
      · exact hb c hc
    · subst h2
      exact List.pairwise_cons.2 ⟨hb, hm⟩
    · refine List.pairwise_cons.2 ⟨fun c hc => ?_, h⟩
      rcases List.mem_cons.1 hc with rfl | hc
      · show a < b
        omega
      · have := hb c hc
        show a < c.1
        simp only at this
        omega

/-- Writing consecutive cells keeps the canonical form. -/
theorem writeCells_wf {m : Memory} (a : Nat) (vs : List Int) (h : Memory.wf m) : Memory.wf (writeCells m a vs) := by
  induction vs generalizing m a with
  | nil => exact h
  | cons v vs ih => exact ih (a + 1) (writeCell_wf a v h)

theorem readCell_writeCells_below (m : Memory) (a b : Nat) (vs : List Int) (h : b < a) :
    readCell (writeCells m a vs) b = readCell m b := by
  induction vs generalizing m a with
  | nil => rfl
  | cons v vs ih => rw [writeCells, ih _ (a + 1) (by omega), readCell_writeCell_other _ _ _ _ (by omega)]

theorem readCell_writeCells (m : Memory) (a j : Nat) (vs : List Int) (h : j < vs.length) :
    readCell (writeCells m a vs) (a + j) = vs[j]? := by
  induction vs generalizing m a j with
  | nil => simp at h
  | cons v vs ih =>
    cases j with
    | zero => simp [writeCells, readCell_writeCells_below _ (a + 1) a vs (by omega), readCell_writeCell_same]
    | succ j =>
      have := ih (writeCell m a v) (a + 1) j (by simpa using h)
      rw [show a + 1 + j = a + (j + 1) by omega] at this
      simpa [writeCells] using this

/-- Memory at reset is in its canonical form. -/
theorem reset_mem_wf : Memory.wf State.reset.mem := by decide

end Sys2Proof.Laws
end

