-- ==== Sys2Proof/Laws/Ops.lean ====
section
/-! SUPPORT. What each shared operation can do, said once. -/

namespace Sys2Proof.Laws

open Sys2Proof.Machine

/-- A read access depends on the length and the cell only. -/
theorem memRead_congr {s u : State} (hl : s.mlen = u.mlen) (addr : Int)
    (hc : inBounds s addr → readCell s.mem addr.toNat = readCell u.mem addr.toNat) :
    memRead s addr = memRead u addr := by
  unfold memRead
  by_cases h : inBounds s addr
  · have h' : inBounds u addr := by simpa [inBounds, hl] using h
    rw [if_pos h, if_pos h', hc h]
  · have h' : ¬ inBounds u addr := by simpa [inBounds, hl] using h
    rw [if_neg h, if_neg h']

@[simp] theorem memRead_setIp (n : Nat) (s : State) (addr : Int) : memRead (setIp n s) addr = memRead s addr :=
  memRead_congr rfl addr fun _ => rfl

theorem memRead_eq_value {s : State} {addr : Int} {v : Int} :
    memRead s addr = .value v ↔ inBounds s addr ∧ readCell s.mem addr.toNat = some v := by
  unfold memRead
  split_ifs with h
  · cases hr : readCell s.mem addr.toNat with
    | none => exact ⟨fun e => by simp at e, fun e => by simpa using e.2⟩
    | some w => exact ⟨fun e => ⟨h, by simpa using e⟩, fun e => by simpa using e.2⟩
  · exact ⟨fun e => by simp at e, fun e => absurd e.1 h⟩

theorem memRead_eq_outOfRange {s : State} {addr : Int} : memRead s addr = .outOfRange ↔ ¬ inBounds s addr := by
  unfold memRead
  split_ifs with h
  · cases hr : readCell s.mem addr.toNat <;> simp [h]
  · simp [h]

theorem memRead_eq_unwritten {s : State} {addr : Int} :
    memRead s addr = .unwritten ↔ inBounds s addr ∧ readCell s.mem addr.toNat = none := by
  unfold memRead
  split_ifs with h
  · cases hr : readCell s.mem addr.toNat with
    | none => exact ⟨fun _ => ⟨h, rfl⟩, fun _ => rfl⟩
    | some w => exact ⟨fun e => by simp at e, fun e => by simpa using e.2⟩
  · exact ⟨fun e => by simp at e, fun e => absurd e.1 h⟩

theorem reading_value {s : State} {ip0 : Nat} {addr : Int} {v : Int} {k : Int → Result}
    (h : memRead s addr = .value v) : reading s ip0 addr k = k v := by
  simp [reading, h]

theorem reading_outOfRange {s : State} {ip0 : Nat} {addr : Int} {k : Int → Result}
    (h : memRead s addr = .outOfRange) :
    reading s ip0 addr k = .next (takeFault .memoryFault addr ip0 s) := by
  simp [reading, h]

/-- If a read and what follows it answer a next state, the read gave a word and the rest answered it, or the read
raised `MemoryFault`. -/
theorem reading_next {s u : State} {ip0 : Nat} {addr : Int} {k : Int → Result}
    (h : reading s ip0 addr k = .next u) :
    (∃ v, memRead s addr = .value v ∧ k v = .next u) ∨
      (memRead s addr = .outOfRange ∧ u = takeFault .memoryFault addr ip0 s) := by
  unfold reading at h
  split at h
  · next v hv => exact .inl ⟨v, hv, h⟩
  · next hv => exact .inr ⟨hv, by simpa using h.symm⟩
  · simp at h

theorem inBounds_setIp (n : Nat) (s : State) (addr : Int) : inBounds (setIp n s) addr ↔ inBounds s addr := Iff.rfl

theorem storing_inBounds {s : State} {ip0 : Nat} {addr v : Int} (h : inBounds s addr) :
    storing s ip0 addr v = .next (setCell addr.toNat v s) := if_pos h

theorem storing_outOfRange {s : State} {ip0 : Nat} {addr v : Int} (h : ¬ inBounds s addr) :
    storing s ip0 addr v = .next (takeFault .memoryFault addr ip0 s) := if_neg h

/-- A store always answers a next state: with the cell replaced, or with `MemoryFault` taken. -/
theorem storing_next {s u : State} {ip0 : Nat} {addr : Int} {v : Int} (h : storing s ip0 addr v = .next u) :
    (inBounds s addr ∧ u = setCell addr.toNat v s) ∨
      (¬ inBounds s addr ∧ u = takeFault .memoryFault addr ip0 s) := by
  unfold storing at h
  split_ifs at h with hb
  · exact .inl ⟨hb, by simpa using h.symm⟩
  · exact .inr ⟨hb, by simpa using h.symm⟩

/-- Everything the source reads can do. -/
theorem sourceWords_next {s u : State} {ip0 : Nat} {a b : Int} {k : Int → Int → Result}
    (h : sourceWords s ip0 a b k = .next u) :
    (∃ va vb, memRead s a = .value va ∧ memRead s b = .value vb ∧ k va vb = .next u) ∨
      (memRead s a = .outOfRange ∧ u = takeFault .memoryFault a ip0 s) ∨
      (∃ va, memRead s a = .value va ∧ memRead s b = .outOfRange ∧ u = takeFault .memoryFault b ip0 s) := by
  rcases reading_next h with ⟨va, ha, h⟩ | ⟨ha, h⟩
  · rcases reading_next h with ⟨vb, hb, h⟩ | ⟨hb, h⟩
    · exact .inl ⟨va, vb, ha, hb, h⟩
    · exact .inr (.inr ⟨va, ha, hb, h⟩)
  · exact .inr (.inl ⟨ha, h⟩)

/-- Everything the operand reads can do: give the three words, or raise `MemoryFault` at the first word that is out of
bounds. -/
theorem operandWords_next {s u : State} {ip0 : Nat} {k : Int → Int → Int → Result}
    (h : operandWords s ip0 k = .next u) :
    (∃ a b t, memRead s (ip0 + 1) = .value a ∧ memRead s (ip0 + 2) = .value b ∧
        memRead s (ip0 + 3) = .value t ∧ k a b t = .next u) ∨
      ∃ n : Nat, 1 ≤ n ∧ n ≤ 3 ∧ memRead s (ip0 + n) = .outOfRange ∧
        (∀ j : Nat, 1 ≤ j → j < n → ∃ v, memRead s (ip0 + j) = .value v) ∧
        u = takeFault .memoryFault (ip0 + n) ip0 s := by
  rcases reading_next h with ⟨a, ha, h⟩ | ⟨ha, h⟩
  · rcases reading_next h with ⟨b, hb, h⟩ | ⟨hb, h⟩
    · rcases reading_next h with ⟨t, ht, h⟩ | ⟨ht, h⟩
      · exact .inl ⟨a, b, t, ha, hb, ht, h⟩
      · refine .inr ⟨3, by omega, by omega, ht, fun j h1 h2 => ?_, h⟩
        obtain rfl | rfl : j = 1 ∨ j = 2 := by omega
        · exact ⟨a, ha⟩
        · exact ⟨b, hb⟩
    · refine .inr ⟨2, by omega, by omega, hb, fun j h1 h2 => ?_, h⟩
      obtain rfl : j = 1 := by omega
      exact ⟨a, ha⟩
  · exact .inr ⟨1, by omega, by omega, ha, fun j h1 h2 => by omega, h⟩

/-- In a total image no read stops the model. -/
theorem memRead_total {s : State} (h : totalImage s) (addr : Int) : memRead s addr ≠ .unwritten := by
  intro hu
  obtain ⟨⟨h0, hN⟩, hr⟩ := memRead_eq_unwritten.1 hu
  have := h addr.toNat (by omega)
  simp [hr] at this

end Sys2Proof.Laws
end

