-- ==== Sys2Proof/Laws/PerInstr.lean ====
section
/-! SUPPORT. Facts about instructions as syntax, one lemma per constructor. -/

namespace Sys2Proof.Laws.RoundTrip

/-- Decoding the words of the instruction, whatever follows them, gives it back and leaves what follows. -/
def Statement (i : Instr) : Prop := ∀ rest, decode (encode i ++ rest) = .instr i rest

theorem add (a b t : Int) : Statement (.add a b t) := fun _ => rfl

theorem mul (a b t : Int) : Statement (.mul a b t) := fun _ => rfl

theorem hlt : Statement .hlt := fun _ => rfl

end Sys2Proof.Laws.RoundTrip
end

