-- ==== Sys2Proof/Laws/Step.lean ====
section
/-! SUPPORT. What an instruction and a step can do, said once, and how a step meets the decoder. -/

namespace Sys2Proof.Laws

open Sys2Proof.Machine Sys2Proof.Safety

/-- The words stand at an address when each of them does. -/
theorem wordsAt_of_each {s : State} {at0 : Nat} {ws : List Int}
    (h : ∀ j : Fin ws.length, memRead s (at0 + (j : Nat)) = .value ws[j]) : wordsAt s at0 ws := by
  intro j w hj
  obtain ⟨hl, rfl⟩ := List.getElem?_eq_some_iff.1 hj
  exact h ⟨j, hl⟩

/-- Everything the body of ADD and MUL can do. -/
theorem arith_next {alu : Int → Int → Int} {a b t : Int} {s u : State} (h : arith alu a b t s = .next u) :
    (∃ va vb, memRead s a = .value va ∧ memRead s b = .value vb ∧ inBounds s t ∧
        u = setCell t.toNat (alu va vb) (setIp (s.ip + 4) s)) ∨
      ∃ addr, (addr = a ∨ addr = b ∨ addr = t) ∧ ¬ inBounds s addr ∧
        u = takeFault .memoryFault addr s.ip (setIp (s.ip + 4) s) := by
  rcases sourceWords_next h with ⟨va, vb, ha, hb, h⟩ | ⟨ha, h⟩ | ⟨va, ha, hb, h⟩
  · rw [memRead_setIp] at ha hb
    rcases storing_next h with ⟨ht, h⟩ | ⟨ht, h⟩
    · exact .inl ⟨va, vb, ha, hb, ht, h⟩
    · exact .inr ⟨t, .inr (.inr rfl), ht, h⟩
  · rw [memRead_setIp] at ha
    exact .inr ⟨a, .inl rfl, memRead_eq_outOfRange.1 ha, h⟩
  · rw [memRead_setIp] at hb
    exact .inr ⟨b, .inr (.inl rfl), memRead_eq_outOfRange.1 hb, h⟩

/-- Everything the fetch can do: pass on the instruction whose words stand at `ip`, or raise a fault. -/
theorem fetchThen_next {s u : State} {k : Instr → Result} (h : fetchThen s k = .next u) :
    (∃ i, wordsAt s s.ip (encode i) ∧ k i = .next u) ∨
      (memRead s s.ip = .outOfRange ∧ u = takeFault .memoryFault s.ip s.ip s) ∨
      (∃ op, memRead s s.ip = .value op ∧ decodeOpcode op = none ∧
        u = takeFault .invalidOpcode op s.ip (setIp (s.ip + 1) s)) ∨
      (∃ op, memRead s s.ip = .value op ∧ (op = 1 ∨ op = 2) ∧
        ∃ n : Nat, 1 ≤ n ∧ n ≤ 3 ∧ memRead s (s.ip + n) = .outOfRange ∧
          (∀ j : Nat, 1 ≤ j → j < n → ∃ v, memRead s (s.ip + j) = .value v) ∧
          u = takeFault .memoryFault (s.ip + n) s.ip (setIp (s.ip + 1) s)) := by
  have quad : ∀ o a b t : Int, memRead s s.ip = .value o → memRead s (s.ip + 1) = .value a →
      memRead s (s.ip + 2) = .value b → memRead s (s.ip + 3) = .value t →
      wordsAt s s.ip [o, a, b, t] := by
    intro o a b t h0 h1 h2 h3 j w hj
    match j with
    | 0 => simp at hj; subst hj; simpa using h0
    | 1 => simp at hj; subst hj; exact h1
    | 2 => simp at hj; subst hj; exact h2
    | 3 => simp at hj; subst hj; exact h3
    | j + 4 => simp at hj
  rcases reading_next h with ⟨op, hop, h⟩ | ⟨hop, h⟩
  · have hd : decodeOpcode op = some .add ∧ op = 1 ∨ decodeOpcode op = some .mul ∧ op = 2 ∨
        decodeOpcode op = some .hlt ∧ op = 99 ∨ decodeOpcode op = none := by
      unfold decodeOpcode
      split_ifs <;> simp_all
    rcases hd with ⟨hd, he⟩ | ⟨hd, he⟩ | ⟨hd, he⟩ | hd
    · simp only [hd] at h
      rcases operandWords_next h with ⟨a, b, t, ha, hb, ht, h⟩ | ⟨n, h1, h2, h3, h4, h⟩
      · rw [memRead_setIp] at ha hb ht
        exact .inl ⟨.add a b t, quad _ a b t (by rw [hop, he]; rfl) ha hb ht, h⟩
      · simp only [memRead_setIp] at h3 h4
        exact .inr (.inr (.inr ⟨op, hop, .inl he, n, h1, h2, h3, h4, h⟩))
    · simp only [hd] at h
      rcases operandWords_next h with ⟨a, b, t, ha, hb, ht, h⟩ | ⟨n, h1, h2, h3, h4, h⟩
      · rw [memRead_setIp] at ha hb ht
        exact .inl ⟨.mul a b t, quad _ a b t (by rw [hop, he]; rfl) ha hb ht, h⟩
      · simp only [memRead_setIp] at h3 h4
        exact .inr (.inr (.inr ⟨op, hop, .inr he, n, h1, h2, h3, h4, h⟩))
    · simp only [hd] at h
      refine .inl ⟨.hlt, fun j w hj => ?_, h⟩
      match j with
      | 0 => simp [encode, opcodeWord] at hj; subst hj; subst he; simpa using hop
      | j + 1 => simp [encode] at hj
    · simp only [hd] at h
      exact .inr (.inr (.inl ⟨op, hop, hd, by simpa using h.symm⟩))
  · exact .inr (.inl ⟨hop, h⟩)

/-- The fetch of an instruction whose words stand at `ip`. -/
theorem fetchThen_instr {s : State} {k : Instr → Result} {i : Instr} (h : wordsAt s s.ip (encode i)) :
    fetchThen s k = k i := by
  cases i with
  | add a b t =>
    have h0 : memRead s s.ip = .value 1 := by simpa using h 0 1 rfl
    have h1 : memRead s (s.ip + 1) = .value a := h 1 a rfl
    have h2 : memRead s (s.ip + 2) = .value b := h 2 b rfl
    have h3 : memRead s (s.ip + 3) = .value t := h 3 t rfl
    simp [fetchThen, reading, h0, h1, h2, h3, decodeOpcode, operandWords]
  | mul a b t =>
    have h0 : memRead s s.ip = .value 2 := by simpa using h 0 2 rfl
    have h1 : memRead s (s.ip + 1) = .value a := h 1 a rfl
    have h2 : memRead s (s.ip + 2) = .value b := h 2 b rfl
    have h3 : memRead s (s.ip + 3) = .value t := h 3 t rfl
    simp [fetchThen, reading, h0, h1, h2, h3, decodeOpcode, operandWords]
  | hlt =>
    have h0 : memRead s s.ip = .value 99 := by simpa using h 0 99 rfl
    simp [fetchThen, reading, h0, decodeOpcode]

theorem stepWith_ready {s : State} (ex : Instr → State → Result) (h : ready s) :
    stepWith ex s = fetchThen s fun i => ex i s := by
  simp [stepWith, h.1, h.2.1, h.2.2]

theorem stepWith_held {s : State} (ex : Instr → State → Result) (hr : s.rst = false)
    (h : s.status ≠ .running ∨ s.en = false) : stepWith ex s = .next s := by
  have : ¬ (s.status = .running ∧ s.en = true) := by
    rintro ⟨h1, h2⟩
    rcases h with h | h <;> simp_all
  simp [stepWith, hr, this]

theorem stepWith_inReset {s : State} (ex : Instr → State → Result) (hr : s.rst = true) :
    stepWith ex s = .next (cpuReset s) := by
  simp [stepWith, hr]

/-- Each state is in reset, ready, or held. -/
theorem gate_cases (s : State) :
    s.rst = true ∨ ready s ∨ (s.rst = false ∧ (s.status ≠ .running ∨ s.en = false)) := by
  by_cases hr : s.rst = true
  · exact .inl hr
  · have hr : s.rst = false := by simpa using hr
    by_cases h : s.status = .running ∧ s.en = true
    · exact .inr (.inl ⟨hr, h⟩)
    · refine .inr (.inr ⟨hr, ?_⟩)
      by_cases h1 : s.status = .running
      · right
        simpa [h1] using h
      · exact .inl h1

/-- Everything the step of a ready core can do. -/
theorem step_ready_next {s u : State} (hr : ready s) (h : step s = .next u) :
    (∃ a b t va vb, (wordsAt s s.ip (encode (.add a b t)) ∧ memRead s a = .value va ∧ memRead s b = .value vb ∧
        inBounds s t ∧ u = setCell t.toNat (aluAdd s.cfg.W va vb) (setIp (s.ip + 4) s))) ∨
    (∃ a b t va vb, (wordsAt s s.ip (encode (.mul a b t)) ∧ memRead s a = .value va ∧ memRead s b = .value vb ∧
        inBounds s t ∧ u = setCell t.toNat (aluMul s.cfg.W va vb) (setIp (s.ip + 4) s))) ∨
    (wordsAt s s.ip (encode .hlt) ∧ u = setStatus .halted (setIp (s.ip + 1) s)) ∨
    (∃ op addr, memRead s s.ip = .value op ∧ (op = 1 ∨ op = 2) ∧ ¬ inBounds s addr ∧
        ((∃ a b t, wordsAt s s.ip [op, a, b, t] ∧ (addr = a ∨ addr = b ∨ addr = t)) ∧
            u = takeFault .memoryFault addr s.ip (setIp (s.ip + 4) s) ∨
          (∃ n : Nat, 1 ≤ n ∧ n ≤ 3 ∧ addr = s.ip + n ∧
            ∀ j : Nat, 1 ≤ j → j < n → ∃ v, memRead s (s.ip + j) = .value v) ∧
            u = takeFault .memoryFault addr s.ip (setIp (s.ip + 1) s))) ∨
    (∃ op, memRead s s.ip = .value op ∧ decodeOpcode op = none ∧
        u = takeFault .invalidOpcode op s.ip (setIp (s.ip + 1) s)) ∨
    (¬ inBounds s s.ip ∧ u = takeFault .memoryFault s.ip s.ip s) := by
  rw [step, stepWith_ready _ hr] at h
  rcases fetchThen_next h with ⟨i, hw, h⟩ | ⟨hop, h⟩ | ⟨op, hop, hd, h⟩ | ⟨op, hop, ho, n, h1, h2, h3, h4, h⟩
  · cases i with
    | add a b t =>
      rcases arith_next h with ⟨va, vb, ha, hb, ht, h⟩ | ⟨addr, hx, hn, h⟩
      · exact .inl ⟨a, b, t, va, vb, hw, ha, hb, ht, h⟩
      · exact .inr (.inr (.inr (.inl ⟨1, addr, by simpa using hw 0 1 rfl, .inl rfl, hn, .inl ⟨⟨a, b, t, hw, hx⟩, h⟩⟩)))
    | mul a b t =>
      rcases arith_next h with ⟨va, vb, ha, hb, ht, h⟩ | ⟨addr, hx, hn, h⟩
      · exact .inr (.inl ⟨a, b, t, va, vb, hw, ha, hb, ht, h⟩)
      · exact .inr (.inr (.inr (.inl ⟨2, addr, by simpa using hw 0 2 rfl, .inr rfl, hn, .inl ⟨⟨a, b, t, hw, hx⟩, h⟩⟩)))
    | hlt => exact .inr (.inr (.inl ⟨hw, by simpa [exec, execHlt] using h.symm⟩))
  · exact .inr (.inr (.inr (.inr (.inr ⟨memRead_eq_outOfRange.1 hop, h⟩))))
  · exact .inr (.inr (.inr (.inr (.inl ⟨op, hop, hd, h⟩))))
  · exact .inr (.inr (.inr (.inl ⟨op, s.ip + n, hop, ho, memRead_eq_outOfRange.1 h3,
      .inr ⟨⟨n, h1, h2, rfl, h4⟩, h⟩⟩)))

end Sys2Proof.Laws
end

