-- ==== Sys2Proof/Tests/Slice0.lean ====
section
/-! SUPPORT. Tests of the model and witnesses for the statements' hypotheses. Expected results are those of
spec/95_test_vectors.md (named S or V below) or are worked out by hand from the rules named. -/

namespace Sys2Proof.Tests

open Sys2Proof.Machine Sys2Proof.Safety Sys2Proof.Laws

/-- A running core of width `W` over an image, `ip` given. -/
def core0 (W : Nat) (image : List Int) (ip : Nat) : State :=
  { State.reset with
    cfg := { W := W, NMAX := 100 }
    mlen := image.length
    mem := writeCells [] 0 image
    ip := ip
    mlenWritten := true }

/-- The answer is a next state of which the test holds. -/
def nextHas (p : State → Bool) : Result → Bool
  | .next u => p u
  | .fault _ => false
  | .refused _ => false

theorem exists_of_nextHas {p : State → Bool} {o : Result} (h : nextHas p o = true) : ∃ u, o = .next u ∧ p u = true := by
  cases o with
  | next u => exact ⟨u, rfl, h⟩
  | fault r => simp [nextHas] at h
  | refused r => simp [nextHas] at h

/-- The cells below `N`, in order. -/
def image (s : State) : List (Option Int) := (List.range s.mlen).map (readCell s.mem)

/-! ### Well-formedness: an ill-formed term for each check -/

theorem test_wf_add : WellFormed 8 (.add (-128) 127 0) := by decide
theorem test_wf_refuses_a : ¬ WellFormed 8 (.add 128 0 0) := by decide
theorem test_wf_refuses_b : ¬ WellFormed 32 (.add 0 (-2147483649) 0) := by decide
theorem test_wf_refuses_t : ¬ WellFormed 32 (.add 0 0 2147483648) := by decide
theorem test_wf_mul_refuses_a : ¬ WellFormed 16 (.mul 32768 0 0) := by decide
theorem test_wf_mul_refuses_b : ¬ WellFormed 16 (.mul 0 (-32769) 0) := by decide
theorem test_wf_mul_refuses_t : ¬ WellFormed 8 (.mul 0 0 (-129)) := by decide
theorem test_wf_hlt : WellFormed 8 .hlt := by decide

/-! ### Decoding: words written out from 30_encoding.md R80, R82, R87; vectors V1 to V15 -/

theorem test_decode_add : decode [1, 5, 6, 7, 99] = .instr (.add 5 6 7) [99] := by decide
theorem test_decode_mul : decode [2, 12, 11, 0] = .instr (.mul 12 11 0) [] := by decide
theorem test_decode_hlt : decode [99, 5, 6] = .instr .hlt [5, 6] := by decide
theorem test_decode_short : decode [2, 12, 11] = .incomplete := by decide
theorem test_decode_bits_add : decodeTableWord 128 0x00000007_00000006_00000005_00000001 = some (.add 5 6 7) := by decide
theorem test_decode_bits_mul_negative :
    decodeTableWord 128 0x00000000_FFFFFFFF_80000000_00000002 = some (.mul (-2147483648) (-1) 0) := by decide
theorem test_decode_bits_hlt : decodeTableWord 32 0x00000063 = some .hlt := by decide
theorem test_decode_row_bits : decodeTableWord 32 0x00000002 = some (.mul 0 0 0) := by decide
theorem test_decode_no_mode_digits : [(101 : Int), 1001, 1002].map decodeOpcode = [none, none, none] := by decide
theorem test_decode_neighbours :
    [(0 : Int), 3, 98, 100, -1, -99, 2147483647, -2147483648].map decodeOpcode = List.replicate 8 none := by decide
theorem test_decode_low_byte_one : decode [257, 0, 0, 0] = .invalidOpcode 257 := by decide
theorem test_encode_bits : encodeBits 8 (.add (-1) 2 3) = 0x0302FF01 := by decide

/-! ### ADD: S1, V27, V22 -/

theorem test_add_overwrites_own_opcode :
    nextHas (fun u => image u == [some 2, some 0, some 0, some 0, some 99] && u.ip == 4 && u.status == .running)
      (step (core0 32 [1, 0, 0, 0, 99] 0)) = true := by decide
theorem test_add_wraps_at_8 :
    nextHas (fun u => readCell u.mem 0 == some (-128)) (step (core0 8 [1, 5, 6, 0, 99, 127, 1] 0)) = true := by decide

/-! ### MUL: S2, V60 -/

theorem test_mul_reads_own_words :
    nextHas (fun u => image u == [some 2, some 3, some 0, some 6, some 99] && u.ip == 4)
      (step (core0 32 [2, 3, 0, 3, 99] 0)) = true := by decide
theorem test_mul_wraps_at_16 :
    nextHas (fun u => readCell u.mem 0 == some (-32594)) (step (core0 16 [2, 5, 6, 0, 99, 182, 181] 0)) = true := by decide

/-! ### HLT: V70, V73 -/

theorem test_hlt_in_last_cell :
    nextHas (fun u => u.ip == 1 && u.status == .halted && u.faultKind == .none) (step (core0 32 [99] 0)) = true := by decide
theorem test_hlt_keeps_memory :
    nextHas (fun u => u.ip == 5 && image u == [some 2, some 0, some 0, some 0, some 99])
      (step (core0 32 [2, 0, 0, 0, 99] 4)) = true := by decide

/-! ### Faults: V34, V40, V43, V45, V48 -/

/-- The fault record, `ip` and Memory a step leaves. -/
def faultIs (kind : FaultKind) (value : Int) (at0 ip : Nat) (s : State) : Bool :=
  nextHas (fun u => u.status == .faulted && u.faultKind == kind && u.faultValue == value && u.faultAt == at0 &&
    u.ip == ip && u.mem == s.mem) (step s)

theorem test_fault_opcode_overwritten : faultIs .invalidOpcode 198 4 5 (core0 32 [1, 4, 4, 4, 198] 4) = true := by decide
theorem test_fault_empty_memory : faultIs .memoryFault 0 0 0 State.reset = true := by decide
theorem test_fault_operand_word : faultIs .memoryFault 3 0 1 (core0 32 [1, 0, 0] 0) = true := by decide
theorem test_fault_negative_address : faultIs .memoryFault (-1) 0 4 (core0 32 [1, -1, 0, 0, 99] 0) = true := by decide
theorem test_fault_first_bad_reported : faultIs .memoryFault 7 0 4 (core0 32 [1, 7, 0, 9, 99] 0) = true := by decide

/-! ### The host: V71, V80, V81, R196 -/

theorem test_halted_absorbs : nextHas (fun u => u == { core0 32 [99] 1 with status := .halted })
    (step { core0 32 [99] 1 with status := .halted }) = true := by decide
theorem test_reset_keeps_memory :
    nextHas (fun u => u.ip == 0 && u.status == .running && readCell u.mem 0 == some 30 && u.mlen == 9)
      (portStep (.driveRst true) { core0 32 [30, 1, 1, 4, 2, 5, 6, 0, 99] 9 with status := .halted }) = true := by decide
theorem test_boot_clears_record :
    nextHas (fun u => u.faultKind == .none && u.faultValue == 0 && u.mlen == 5 && readCell u.mem 4 == some 99 && !u.rst)
      (portSteps (bootMoves [1, 0, 0, 0, 99] [])
        { core0 32 [1, 0, 0, 5, 99] 4 with status := .faulted, faultKind := .memoryFault, faultValue := 5 }) = true := by decide
theorem test_launch_without_length_refused :
    (match portSteps [.driveRst true, .driveRst false] State.reset with | .refused r => r == .lengthNeverWritten | _ => false) = true := by
  decide
theorem test_placed_at_reset :
    nextHas (fun u => u.status == .halted && u.ip == 1) (step (State.reset.withFetchWord 32 99)) = true := by decide

/-! ### Witnesses: a state that meets the hypotheses of each statement, one for each clause -/

/-- A halted and a faulted core, and a core held in reset. -/
def coreHalted : State := { core0 32 [99] 1 with status := .halted }
def coreFaulted : State :=
  { core0 32 [0] 1 with status := .faulted, faultKind := .invalidOpcode, faultValue := 0, faultAt := 0 }
def coreInReset : State := { core0 32 [99] 0 with rst := true }

theorem witness_inv_running : Inv (core0 32 [1, 0, 0, 0, 99] 0) := by constructor <;> decide
theorem witness_inv_halted : Inv coreHalted := by constructor <;> decide
theorem witness_inv_faulted : Inv coreFaulted := by constructor <;> decide
theorem witness_inv_in_reset : Inv coreInReset := by constructor <;> decide
/-- The invariant refuses a pointer beyond `N`, a cell that holds no word, and a record that is not clear. -/
theorem witness_inv_refuses_pointer : ¬ Inv (core0 32 [99] 4) := fun h => absurd h.pointer (by decide)
theorem witness_inv_refuses_cell : ¬ Inv (core0 8 [128] 0) := fun h => absurd (h.cells (0, 128) (by decide)).2 (by decide)
theorem witness_inv_refuses_record : ¬ Inv { core0 32 [99] 0 with faultValue := 1 } :=
  fun h => absurd (h.clear (by decide)).2.1 (by decide)

/-- `StepKeepsInv`, `HostMovesKeepInv`: the invariant and a next state together. -/
theorem witness_inv_and_step : Inv (core0 32 [1, 0, 0, 0, 99] 0) ∧
    ∃ u, step (core0 32 [1, 0, 0, 0, 99] 0) = .next u ∧ (u.ip == 4) = true :=
  ⟨witness_inv_running, exists_of_nextHas (by decide)⟩
theorem witness_inv_and_move : Inv coreInReset ∧ ∃ u, portStep (.writeMem 0 5) coreInReset = .next u ∧
    (readCell u.mem 0 == some 5) = true := ⟨witness_inv_in_reset, exists_of_nextHas (by decide)⟩

/-- `StepKeepsConfigAndLength`, `StatusTransitionsExact`, `PointerAdvance`, `AccessesPerStep`,
`FaultsArePrecise`, `MidStepResetHasTwoOutcomes`: a ready core whose step goes on running, halts, or faults in each way. -/
theorem witness_step_running : ready (core0 32 [1, 0, 0, 0, 99] 0) ∧
    ∃ u, step (core0 32 [1, 0, 0, 0, 99] 0) = .next u ∧ (u.status == .running) = true :=
  ⟨by decide, exists_of_nextHas (by decide)⟩
theorem witness_step_halted : ready (core0 32 [99] 0) ∧
    ∃ u, step (core0 32 [99] 0) = .next u ∧ (u.status == .halted) = true :=
  ⟨by decide, exists_of_nextHas (by decide)⟩
theorem witness_step_invalid : ready (core0 32 [0] 0) ∧ ∃ u, step (core0 32 [0] 0) = .next u ∧
    (u.status == .faulted && u.faultKind == .invalidOpcode) = true := ⟨by decide, exists_of_nextHas (by decide)⟩
theorem witness_step_fetch_fault : ready (core0 32 [] 0) ∧ ¬ inBounds (core0 32 [] 0) 0 ∧
    ∃ u, step (core0 32 [] 0) = .next u ∧ (u.status == .faulted && u.ip == 0) = true :=
  ⟨by decide, by decide, exists_of_nextHas (by decide)⟩
theorem witness_step_operand_fault : ready (core0 32 [1, 0, 0] 0) ∧ inBounds (core0 32 [1, 0, 0] 0) 0 ∧
    ¬ inBounds (core0 32 [1, 0, 0] 0) 3 ∧ ∃ u, step (core0 32 [1, 0, 0] 0) = .next u ∧
    (u.status == .faulted && u.faultKind == .memoryFault && u.ip == 1) = true :=
  ⟨by decide, by decide, by decide, exists_of_nextHas (by decide)⟩
theorem witness_step_data_fault : ready (core0 32 [1, 0, 0, 4] 0) ∧ inBounds (core0 32 [1, 0, 0, 4] 0) 3 ∧
    ∃ u, step (core0 32 [1, 0, 0, 4] 0) = .next u ∧
    (u.status == .faulted && u.faultKind == .memoryFault && u.ip == 4) = true :=
  ⟨by decide, by decide, exists_of_nextHas (by decide)⟩

/-- `StatusTransitionsExact`, `StoreSeenByNextFetch`: words in place, operands in bounds, the store on the next opcode. -/
theorem witness_add_in_place : wordsAt (core0 32 [1, 0, 0, 4, 99] 0) 0 (encode (.add 0 0 4)) ∧
    ArithInBounds (.add 0 0 4) (core0 32 [1, 0, 0, 4, 99] 0) ∧ ready (core0 32 [1, 0, 0, 4, 99] 0) ∧
    ∃ u, step (core0 32 [1, 0, 0, 4, 99] 0) = .next u ∧ (u.status == .running && memRead u 4 == .value 2) = true :=
  ⟨wordsAt_of_each (by decide), ⟨by decide, by decide, by decide⟩, by decide, exists_of_nextHas (by decide)⟩
theorem witness_mul_in_place : wordsAt (core0 32 [2, 3, 0, 3, 99] 0) 0 (encode (.mul 3 0 3)) ∧
    ArithInBounds (.mul 3 0 3) (core0 32 [2, 3, 0, 3, 99] 0) := ⟨wordsAt_of_each (by decide), ⟨by decide, by decide, by decide⟩⟩
theorem witness_hlt_in_place : wordsAt (core0 32 [99] 0) 0 (encode .hlt) := wordsAt_of_each (by decide)

/-- `StatusTransitionsExact`, the stopped and the host clauses: a move that leaves `rst` and one that raises it. -/
theorem witness_stopped : coreHalted.rst = false ∧ coreHalted.status ≠ .running ∧ coreFaulted.status ≠ .running ∧
    ∃ u, step coreHalted = .next u ∧ (u == coreHalted) = true :=
  ⟨by decide, by decide, by decide, exists_of_nextHas (by decide)⟩
theorem witness_move_plain : raisesRst (.writeMem 0 5) = false ∧
    ∃ u, portStep (.writeMem 0 5) coreInReset = .next u ∧ (readCell u.mem 0 == some 5) = true :=
  ⟨by decide, exists_of_nextHas (by decide)⟩
theorem witness_move_raises : raisesRst (.rstMidStep true) = true ∧
    ∃ u, portStep (.rstMidStep true) (core0 32 [1, 0, 0, 0, 99] 0) = .next u ∧
      (u.rst && readCell u.mem 0 == some 2) = true := ⟨by decide, exists_of_nextHas (by decide)⟩
/-- `ResetValues`: a core in reset. -/
theorem witness_in_reset : coreInReset.rst = true := by decide
/-- `StoppedUntilReset`: a list of moves none of which raises `rst`. -/
theorem witness_moves_plain : ∀ mv ∈ [HostMove.driveEn false, .writeMem 0 1, .readMem 0, .driveRst false], raisesRst mv = false := by
  decide
/-- `GateHoldsTheState`: both clauses. -/
theorem witness_disabled : { core0 32 [99] 0 with en := false }.rst = false ∧ { core0 32 [99] 0 with en := false }.en = false := by
  decide

/-- `StepRunsDecodedInstruction`: a ready core whose words decode. -/
theorem witness_decoded : ready (core0 32 [1, 0, 0, 0, 99] 0) ∧ wordsAt (core0 32 [1, 0, 0, 0, 99] 0) 0 [1, 0, 0, 0, 99] ∧
    decode [1, 0, 0, 0, 99] = .instr (.add 0 0 0) [99] := ⟨by decide, wordsAt_of_each (by decide), by decide⟩

/-- `TotalImageAlwaysSteps`, `RunStopsWithinBound`: a total image; and one that is not (`OnlyUnwrittenCellsStop`). -/
theorem witness_total : Inv (core0 32 [1, 0, 0, 0, 99] 0) ∧ totalImage (core0 32 [1, 0, 0, 0, 99] 0) ∧
    ready (core0 32 [1, 0, 0, 0, 99] 0) := ⟨witness_inv_running, by decide, by decide⟩
theorem witness_not_total : ¬ totalImage { core0 32 [99] 0 with mlen := 2 } := by decide
theorem witness_unwritten_stops :
    (match step { core0 32 [99] 1 with mlen := 2 } with | .fault r => r == .unwrittenCell 1 | _ => false) = true := by decide

/-- `AddFollowsItsRule` and `MulFollowsItsRule`: for either opcode, a state that meets the hypotheses of each clause,
the bad address at the boundary. -/
theorem witness_quad_a_word : ∀ o ∈ [(1 : Int), 2], ready (core0 32 [o] 0) ∧ memRead (core0 32 [o] 0) 0 = .value o ∧
    ¬ inBounds (core0 32 [o] 0) 1 := by decide
theorem witness_quad_b_word : ∀ o ∈ [(1 : Int), 2], ready (core0 32 [o, 0] 0) ∧ memRead (core0 32 [o, 0] 0) 0 = .value o ∧
    memRead (core0 32 [o, 0] 0) 1 = .value 0 ∧ ¬ inBounds (core0 32 [o, 0] 0) 2 := by decide
theorem witness_quad_t_word : ∀ o ∈ [(1 : Int), 2], ready (core0 32 [o, 0, 0] 0) ∧ memRead (core0 32 [o, 0, 0] 0) 0 = .value o ∧
    memRead (core0 32 [o, 0, 0] 0) 2 = .value 0 ∧ ¬ inBounds (core0 32 [o, 0, 0] 0) 3 := by decide
theorem witness_quad_a : ∀ o ∈ [(1 : Int), 2], ∀ a ∈ [(-1 : Int), 4], ready (core0 32 [o, a, 0, 0] 0) ∧
    memRead (core0 32 [o, a, 0, 0] 0) 0 = .value o ∧ memRead (core0 32 [o, a, 0, 0] 0) 1 = .value a ∧
    memRead (core0 32 [o, a, 0, 0] 0) 2 = .value 0 ∧ memRead (core0 32 [o, a, 0, 0] 0) 3 = .value 0 ∧
    ¬ inBounds (core0 32 [o, a, 0, 0] 0) a := by decide
theorem witness_quad_b : ∀ o ∈ [(1 : Int), 2], ∀ b ∈ [(-1 : Int), 4], ready (core0 32 [o, 3, b, 0] 0) ∧
    memRead (core0 32 [o, 3, b, 0] 0) 0 = .value o ∧ memRead (core0 32 [o, 3, b, 0] 0) 1 = .value 3 ∧
    memRead (core0 32 [o, 3, b, 0] 0) 2 = .value b ∧ memRead (core0 32 [o, 3, b, 0] 0) 3 = .value 0 ∧
    ¬ inBounds (core0 32 [o, 3, b, 0] 0) b := by decide
theorem witness_quad_t : ∀ o ∈ [(1 : Int), 2], ∀ x ∈ [(-1 : Int), 4], ready (core0 32 [o, 0, 1, x] 0) ∧
    memRead (core0 32 [o, 0, 1, x] 0) 0 = .value o ∧ memRead (core0 32 [o, 0, 1, x] 0) 1 = .value 0 ∧
    memRead (core0 32 [o, 0, 1, x] 0) 2 = .value 1 ∧ memRead (core0 32 [o, 0, 1, x] 0) 3 = .value x ∧
    ¬ inBounds (core0 32 [o, 0, 1, x] 0) x := by decide
theorem witness_quad_completes : ∀ o ∈ [(1 : Int), 2], ready (core0 32 [o, 0, 3, 3] 0) ∧
    memRead (core0 32 [o, 0, 3, 3] 0) 0 = .value o ∧ memRead (core0 32 [o, 0, 3, 3] 0) 1 = .value 0 ∧
    memRead (core0 32 [o, 0, 3, 3] 0) 2 = .value 3 ∧ memRead (core0 32 [o, 0, 3, 3] 0) 3 = .value 3 ∧
    inBounds (core0 32 [o, 0, 3, 3] 0) 3 := by decide

/-- `AddCompletes`, `MulCompletes`, `AliasedOperandsReadFirst`: readable sources and a target in bounds; the frames'
hypothesis is met by the same states. -/
theorem witness_completes : memRead (core0 32 [1, 0, 0, 0, 99] 0) 0 = .value 1 ∧
    memRead (core0 32 [1, 0, 0, 0, 99] 0) 4 = .value 99 ∧ inBounds (core0 32 [1, 0, 0, 0, 99] 0) 4 := by decide
theorem witness_frames :
    (∃ u, exec (.add 0 4 4) (core0 32 [1, 0, 0, 0, 99] 0) = .next u ∧ (readCell u.mem 4 == some 100) = true) ∧
    (∃ u, exec (.mul 0 9 4) (core0 32 [1, 0, 0, 0, 99] 0) = .next u ∧ (u.status == .faulted) = true) ∧
    ∃ u, exec .hlt (core0 32 [1, 0, 0, 0, 99] 0) = .next u ∧ (u.status == .halted) = true :=
  ⟨exists_of_nextHas (by decide), exists_of_nextHas (by decide), exists_of_nextHas (by decide)⟩

/-- The arithmetic statements: words at the ends of the range, sums on either side of each bound. -/
theorem witness_sum_fits : inWordRange 8 100 ∧ inWordRange 8 27 ∧ inWordRange 8 (100 + 27) := by decide
theorem witness_sum_above : inWordRange 8 127 ∧ inWordRange 8 1 ∧ (127 : Int) + 1 > 2 ^ (8 - 1) - 1 := by decide
theorem witness_sum_below : inWordRange 8 (-128) ∧ inWordRange 8 (-1) ∧ (-128 : Int) + -1 < -2 ^ (8 - 1) := by decide
theorem witness_product_fits : inWordRange 8 (-3) ∧ inWordRange 8 5 ∧ inWordRange 8 (-3 * 5) := by decide
theorem witness_product_extremes : aluMul 8 (-128) (-128) = 0 ∧ aluMul 8 127 127 = 1 ∧ aluMul 8 (-128) (-1) = -128 := by decide
theorem witness_wrap_unique : inWordRange 8 (-56) ∧ (2 : Int) ^ 8 ∣ -56 - 200 := by decide

/-- `OverflowFreeRunMatchesSource`: an ADD whose sum is a word. -/
theorem witness_overflow_free : (core0 8 [1, 0, 0, 0, 99] 0).cfg.wf ∧ OverflowFreeRun 1 (core0 8 [1, 0, 0, 0, 99] 0) := by
  refine ⟨by decide, fun j u hj hu _ i z hw hz => ?_⟩
  obtain rfl : j = 0 := by omega
  obtain rfl : core0 8 [1, 0, 0, 0, 99] 0 = u := by simpa [iterateStep] using hu
  have h0 : memRead (core0 8 [1, 0, 0, 0, 99] 0) 0 = .value 1 := by decide
  have h1 : memRead (core0 8 [1, 0, 0, 0, 99] 0) 1 = .value 0 := by decide
  have h2 : memRead (core0 8 [1, 0, 0, 0, 99] 0) 2 = .value 0 := by decide
  cases i with
  | add a b t =>
    obtain rfl : (0 : Int) = a := by simpa using h1.symm.trans (hw 1 a rfl)
    obtain rfl : (0 : Int) = b := by simpa using h2.symm.trans (hw 2 b rfl)
    obtain rfl : (2 : Int) = z := by simpa [exactResult, h0] using hz
    decide
  | mul a b t => exact absurd (hw 0 2 rfl) (by decide)
  | hlt => simp [exactResult] at hz

/-- `InvalidOpcodeFault`, `ArithmeticMemoryFaults`, `OpcodeFetchPastTheEnd`. -/
theorem witness_invalid : ready (core0 32 [100] 0) ∧ memRead (core0 32 [100] 0) 0 = .value 100 := by decide
theorem witness_straddles : totalImage (core0 32 [2, 0, 0] 0) ∧ ready (core0 32 [2, 0, 0] 0) ∧
    memRead (core0 32 [2, 0, 0] 0) 0 = .value 2 ∧ ¬ inBounds (core0 32 [2, 0, 0] 0) 3 := by decide
theorem witness_bad_operand : ready (core0 32 [1, 0, -3, 0, 99] 0) ∧ wordsAt (core0 32 [1, 0, -3, 0, 99] 0) 0 [1, 0, -3, 0] ∧
    ¬ inBounds (core0 32 [1, 0, -3, 0, 99] 0) (-3) ∧ totalImage (core0 32 [1, 0, -3, 0, 99] 0) :=
  ⟨by decide, wordsAt_of_each (by decide), by decide, by decide⟩
theorem witness_past_the_end : Inv (core0 32 [2, 0, 0, 0] 4) ∧ ready (core0 32 [2, 0, 0, 0] 4) ∧
    (core0 32 [2, 0, 0, 0] 4).ip = (core0 32 [2, 0, 0, 0] 4).mlen := ⟨by constructor <;> decide, by decide, by decide⟩

/-- `MemoryPrimitives`, `ReadReturnsLastWrite`: an address in bounds, one that is not, a cell that holds a word. -/
theorem witness_primitives : inBounds (core0 32 [7, 8] 0) 1 ∧ ¬ inBounds (core0 32 [7, 8] 0) 2 ∧
    readCell (core0 32 [7, 8] 0).mem 1 = some 8 ∧ Memory.wf (core0 32 [7, 8] 0).mem ∧
    ∃ u, storing (core0 32 [7, 8] 0) 0 1 5 = .next u ∧ (readCell u.mem 1 == some 5) = true :=
  ⟨by decide, by decide, by decide, by decide, exists_of_nextHas (by decide)⟩

/-- `StepDependsOnListedReads`: HLT reads its opcode alone, so a Memory that differs elsewhere agrees on the reads. -/
theorem witness_reads_agree :
    (∀ addr, MemAccess.read addr ∈ stepAccesses (core0 32 [99, 5] 0) →
      readCell [(0, 99), (1, 6)] addr.toNat = readCell (core0 32 [99, 5] 0).mem addr.toNat) ∧
    ∃ u, step (core0 32 [99, 5] 0) = .next u ∧ (u.status == .halted) = true := by
  have hl : stepAccesses (core0 32 [99, 5] 0) = [.read 0] := by decide
  refine ⟨fun addr h => ?_, exists_of_nextHas (by decide)⟩
  obtain rfl : addr = 0 := by simpa [hl] using h
  decide
theorem witness_accesses : stepAccesses (core0 32 [1, 0, 3, 4, 99] 0) =
    [.read 0, .read 1, .read 2, .read 3, .read 0, .read 3, .write 4] := by decide

/-- `CellsBeyondLengthDoNotMatter`: two cores that differ in the capacity and in a cell beyond `N`. -/
theorem witness_same_visible :
    SameVisible (core0 32 [99] 0) { core0 32 [99] 0 with cfg := { W := 32, NMAX := 7 }, mem := [(0, 99), (3, 1)] } := by
  constructor <;> decide

/-- The encoding statements: a well-formed instruction at a width, a word the decoder accepts and one it refuses. -/
theorem witness_encodable : 8 ≤ 8 ∧ WellFormed 8 (.mul (-128) 127 (-1)) ∧ 8 * lengthWords (.mul (-128) 127 (-1)) ≤ 32 := by decide
theorem witness_placed : decodeBits (core0 8 [5] 1).cfg.W 32 99 = some .hlt ∧ decodeBits (core0 8 [5] 1).cfg.W 32 98 = none := by decide

/-- The host statements. -/
theorem witness_host_gated : (core0 32 [7] 0).rst = false ∧ (core0 32 [7] 0).status = .running ∧
    inBounds coreHalted 0 ∧ ¬ inBounds coreHalted 1 := by decide
theorem witness_bootable : ([1, 4, 0, 0, 99] : List Int).length ≤ State.reset.cfg.NMAX ∧
    (∀ v ∈ ([1, 4, 0, 0, 99] : List Int), inWordRange State.reset.cfg.W v) ∧
    inWordRange State.reset.cfg.W 4 ∧ 3 ≤ ([1, 4, 0, 0, 99] : List Int).length := by decide
theorem witness_boots : (∀ v ∈ ([1, 0, 0] : List Int), inWordRange 8 v) ∧ ([1, 0, 0] : List Int).length ≤ 100 ∧ (∃ u, portSteps (bootMoves [1, 0, 0] []) (core0 8 [99] 1) = .next u ∧ ready u) ∧
    ∃ u, portSteps (bootMoves [1, 0, 0] []) { core0 8 [5, 5, 5, 5] 1 with status := .halted } = .next u ∧ ready u := by
  refine ⟨by decide, by decide, ?_, ?_⟩
  · obtain ⟨u, h, hu⟩ := exists_of_nextHas (p := fun u => decide (ready u)) (o := portSteps (bootMoves [1, 0, 0] []) (core0 8 [99] 1)) (by decide)
    exact ⟨u, h, by simpa using hu⟩
  · obtain ⟨u, h, hu⟩ := exists_of_nextHas (p := fun u => decide (ready u))
      (o := portSteps (bootMoves [1, 0, 0] []) { core0 8 [5, 5, 5, 5] 1 with status := .halted }) (by decide)
    exact ⟨u, h, by simpa using hu⟩
theorem witness_refused_moves : coreInReset.rst = true ∧ coreInReset.mlenWritten = true ∧ totalImage coreInReset ∧ ¬ totalImage { coreInReset with mlen := 2 } ∧
    ¬ inWordRange coreInReset.cfg.W 2147483648 ∧ ¬ ((0 : Int) ≤ 101 ∧ (101 : Int) ≤ coreInReset.cfg.NMAX) := by decide

theorem witness_length_never_written : (raiseRst State.reset).rst = true ∧ (raiseRst State.reset).mlenWritten = false ∧
    totalImage (raiseRst State.reset) := by decide
/-- `LengthReadsBackAsWritten`: a length accepted, a step, and moves that leave it. -/
theorem witness_length_read : coreInReset.rst = true ∧
    (∃ u, portStep (.writeMlen 100) coreInReset = .next u ∧ (portReadMlen u == some 100) = true) ∧
    (∃ u, step (core0 32 [99] 0) = .next u ∧ (portReadMlen u == some 1) = true) ∧
    writesMlen (.writeMem 0 5) = false ∧ (∃ u, portStep (.writeMem 0 5) coreInReset = .next u ∧ (portReadMlen u == some 1) = true) ∧
    (core0 32 [99] 0).rst = false ∧ ∃ u, portStep (.writeMlen 7) (core0 32 [99] 0) = .next u ∧ (portReadMlen u == some 1) = true :=
  ⟨by decide, exists_of_nextHas (by decide), exists_of_nextHas (by decide), by decide, exists_of_nextHas (by decide), by decide,
    exists_of_nextHas (by decide)⟩

end Sys2Proof.Tests
end

section
/-! SUPPORT. Proofs of the scope statements: the two memory primitives, `wrap_W`, and the independence of a run from the
capacity and from the cells at `N` and beyond. -/

namespace Sys2Proof.Proofs

open Sys2Proof.Machine Sys2Proof.Safety Sys2Proof.Laws

/-! ### The memory primitives (00_scope.md R10, R11) -/

/-- Settles O31: the bounds check decides, and each primitive's rule under `Laws` gives the answer on either side. -/
theorem memoryPrimitives : Obligations.MemoryPrimitives := by
  intro s ip0 addr v w k
  refine ⟨fun hout => ?_, fun hin => ?_⟩
  · exact ⟨reading_outOfRange (memRead_eq_outOfRange.2 hout), storing_outOfRange hout⟩
  · exact ⟨fun hcell => reading_value (memRead_eq_value.2 ⟨hin, hcell⟩), storing_inBounds hin⟩

/-! ### `wrap_W` (00_scope.md R8, decision D1) -/

/-- The modulus is twice the bound of the word range, so the balanced residues of `Int.bmod` are the words. -/
theorem two_pow_eq_two_mul_pred {W : Nat} (hW : 1 ≤ W) : (2 : Int) ^ W = 2 * 2 ^ (W - 1) := by
  rw [← pow_succ', Nat.sub_add_cancel hW]

/-- R8 as an equivalence: left to right is existence, right to left is uniqueness. -/
theorem wrapW_eq_iff {W : Nat} {z r : Int} (hW : 1 ≤ W) :
    wrapW W z = r ↔ inWordRange W r ∧ (2 : Int) ^ W ∣ r - z := by
  have hmod := two_pow_eq_two_mul_pred hW
  rw [wrapW, Int.bmod_eq_iff (Nat.two_pow_pos W), ← and_assoc]
  push_cast
  refine and_congr_left fun _ => ?_
  rw [hmod]
  constructor <;> rintro ⟨hlo, hhi⟩ <;> constructor <;> omega

/-- Settles O22: existence and uniqueness are the two directions of `wrapW_eq_iff`. -/
theorem wrapIsTheUniqueWord : Obligations.WrapIsTheUniqueWord := by
  intro W z hW
  obtain ⟨hrange, hcongr⟩ := (wrapW_eq_iff (z := z) hW).1 rfl
  exact ⟨hrange, hcongr, fun r hr hrz => ((wrapW_eq_iff hW).2 ⟨hr, hrz⟩).symm⟩

/-! ### `SameVisible` under the named updates of the state -/

section
variable {s s' : State} (h : SameVisible s s')
include h

theorem sameVisible_setIp (n : Nat) : SameVisible (setIp n s) (setIp n s') := { h with ip := rfl }

theorem sameVisible_setStatus (st : Status) : SameVisible (setStatus st s) (setStatus st s') :=
  { h with status := rfl }

theorem sameVisible_takeFault (kind : FaultKind) (value : Int) (ip0 : Nat) :
    SameVisible (takeFault kind value ip0 s) (takeFault kind value ip0 s') :=
  { h with status := rfl, faultKind := rfl, faultValue := rfl, faultAt := rfl }

theorem sameVisible_cpuReset : SameVisible (cpuReset s) (cpuReset s') :=
  { h with ip := rfl, status := rfl, faultKind := rfl, faultValue := rfl, faultAt := rfl }

theorem sameVisible_setCell (a : Nat) (v : Int) : SameVisible (setCell a v s) (setCell a v s') where
  __ := h
  cells b hb := by
    have hcell : readCell s.mem b = readCell s'.mem b := h.cells b hb
    simp only [setCell_mem, readCell_writeCell, hcell]

theorem sameVisible_inBounds (addr : Int) : inBounds s addr ↔ inBounds s' addr := by
  rw [inBounds, inBounds, h.mlen]

/-- Every access of the CPU is bounds checked first, so it sees only what the two states share. -/
theorem sameVisible_memRead (addr : Int) : memRead s addr = memRead s' addr :=
  memRead_congr h.mlen addr fun ⟨h0, hN⟩ => h.cells addr.toNat (by omega)

theorem sameVisible_ready (hr : ready s) : ready s' := by
  obtain ⟨hrst, hstatus, hen⟩ := hr
  exact ⟨h.rst ▸ hrst, h.status ▸ hstatus, h.en ▸ hen⟩

end

/-! ### Answers that agree -/

/-- Two answers that agree: next states that agree on what a program sees, or the same stop. -/
inductive SameAnswer : Result → Result → Prop where
  | next {u u' : State} (h : SameVisible u u') : SameAnswer (.next u) (.next u')
  | fault (r : Fault) : SameAnswer (.fault r) (.fault r)
  | refused (r : Refusal) : SameAnswer (.refused r) (.refused r)

theorem SameAnswer.exists_next {o : Result} {u : State} (h : SameAnswer (.next u) o) :
    ∃ u', o = .next u' ∧ SameVisible u u' := by
  cases h with
  | next hu => exact ⟨_, rfl, hu⟩

theorem SameAnswer.eq_fault {o : Result} {r : Fault} (h : SameAnswer (.fault r) o) : o = .fault r := by
  cases h
  rfl

/-! ### The shared operations, the instructions and the step answer alike -/

section
variable {s s' : State} (h : SameVisible s s')
include h

theorem sameAnswer_reading (ip0 : Nat) (addr : Int) {k k' : Int → Result} (hk : ∀ v, SameAnswer (k v) (k' v)) :
    SameAnswer (reading s ip0 addr k) (reading s' ip0 addr k') := by
  unfold reading
  rw [← sameVisible_memRead h addr]
  cases memRead s addr with
  | value v => exact hk v
  | outOfRange => exact .next (sameVisible_takeFault h _ _ _)
  | unwritten => exact .fault _

theorem sameAnswer_storing (ip0 : Nat) (addr v : Int) :
    SameAnswer (storing s ip0 addr v) (storing s' ip0 addr v) := by
  by_cases hb : inBounds s addr
  · rw [storing_inBounds hb, storing_inBounds ((sameVisible_inBounds h addr).1 hb)]
    exact .next (sameVisible_setCell h _ _)
  · rw [storing_outOfRange hb, storing_outOfRange (mt (sameVisible_inBounds h addr).2 hb)]
    exact .next (sameVisible_takeFault h _ _ _)

theorem sameAnswer_operandWords (ip0 : Nat) {k k' : Int → Int → Int → Result}
    (hk : ∀ a b t, SameAnswer (k a b t) (k' a b t)) :
    SameAnswer (operandWords s ip0 k) (operandWords s' ip0 k') :=
  sameAnswer_reading h ip0 _ fun a =>
    sameAnswer_reading h ip0 _ fun b =>
      sameAnswer_reading h ip0 _ fun t => hk a b t

theorem sameAnswer_sourceWords (ip0 : Nat) (a b : Int) {k k' : Int → Int → Result}
    (hk : ∀ va vb, SameAnswer (k va vb) (k' va vb)) :
    SameAnswer (sourceWords s ip0 a b k) (sourceWords s' ip0 a b k') :=
  sameAnswer_reading h ip0 a fun va => sameAnswer_reading h ip0 b fun vb => hk va vb

theorem sameAnswer_arith (alu : Int → Int → Int) (a b t : Int) :
    SameAnswer (arith alu a b t s) (arith alu a b t s') := by
  unfold arith
  rw [← h.ip]
  have h1 := sameVisible_setIp h (s.ip + 4)
  exact sameAnswer_sourceWords h1 _ a b fun va vb => sameAnswer_storing h1 _ t (alu va vb)

theorem sameAnswer_exec (i : Instr) : SameAnswer (exec i s) (exec i s') := by
  cases i with
  | add a b t =>
    simp only [exec, execAdd, ← h.width]
    exact sameAnswer_arith h _ a b t
  | mul a b t =>
    simp only [exec, execMul, ← h.width]
    exact sameAnswer_arith h _ a b t
  | hlt =>
    simp only [exec, execHlt, ← h.ip]
    exact .next (sameVisible_setStatus (sameVisible_setIp h _) _)

theorem sameAnswer_fetchThen {k k' : Instr → Result} (hk : ∀ i, SameAnswer (k i) (k' i)) :
    SameAnswer (fetchThen s k) (fetchThen s' k') := by
  unfold fetchThen
  rw [← h.ip]
  have h1 := sameVisible_setIp h (s.ip + 1)
  refine sameAnswer_reading h s.ip s.ip fun op => ?_
  cases decodeOpcode op with
  | none => exact .next (sameVisible_takeFault h1 _ _ _)
  | some o =>
    cases o with
    | add => exact sameAnswer_operandWords h1 s.ip fun a b t => hk (.add a b t)
    | mul => exact sameAnswer_operandWords h1 s.ip fun a b t => hk (.mul a b t)
    | hlt => exact hk .hlt

theorem sameAnswer_step : SameAnswer (step s) (step s') := by
  unfold step
  rcases gate_cases s with hrst | hready | ⟨hrst, hheld⟩
  · rw [stepWith_inReset exec hrst, stepWith_inReset exec (h.rst ▸ hrst)]
    exact .next (sameVisible_cpuReset h)
  · rw [stepWith_ready exec hready, stepWith_ready exec (sameVisible_ready h hready)]
    exact sameAnswer_fetchThen h (sameAnswer_exec h)
  · rw [stepWith_held exec hrst hheld, stepWith_held exec (h.rst ▸ hrst) (h.status ▸ h.en ▸ hheld)]
    exact .next h

end

/-- A machine whose single steps answer alike answers alike after any number of them. -/
theorem sameAnswer_iterateStep {f : State → Result}
    (hf : ∀ {s s' : State}, SameVisible s s' → SameAnswer (f s) (f s')) (n : Nat) {s s' : State}
    (h : SameVisible s s') : SameAnswer (iterateStep f n s) (iterateStep f n s') := by
  induction n generalizing s s' with
  | zero => exact .next h
  | succ n ih =>
    unfold iterateStep
    have hstep := hf h
    generalize f s = o, f s' = o' at hstep
    cases hstep with
    | next hu => exact ih hu
    | fault r => exact .fault r
    | refused r => exact .refused r

/-- Settles O35: single steps answer alike because every access is bounds checked (`sameVisible_memRead`), and the
agreement is carried along the run by induction on the number of steps. -/
theorem cellsBeyondLengthDoNotMatter : Obligations.CellsBeyondLengthDoNotMatter := by
  intro n s s' h
  have hrun := sameAnswer_iterateStep sameAnswer_step n h
  exact ⟨fun u hu => (hu ▸ hrun).exists_next, fun r hr => (hr ▸ hrun).eq_fault⟩

end Sys2Proof.Proofs
end

section
/-! SUPPORT. What a host move can do, said once for each port operation (10_state.md R32; 70_reset_and_hazards.md R190 to
R197). -/

namespace Sys2Proof.Proofs

open Sys2Proof.Machine Sys2Proof.Safety Sys2Proof.Laws

/-- Everything a release of `rst` that is not refused can do. -/
theorem releaseRst_next {s u : State} (h : releaseRst s = .next u) :
    (s.rst = false ∧ u = s) ∨
      (s.rst = true ∧ s.mlenWritten = true ∧ totalImage s ∧ u = { s with rst := false }) := by
  unfold releaseRst at h
  split_ifs at h with hrst hwritten himage
  · exact .inr ⟨hrst, hwritten, himage, by simpa using h.symm⟩
  · exact .inl ⟨by simpa using hrst, by simpa using h.symm⟩

/-- A rise of `rst` inside a step is a rise after it, or a rise in its place. -/
theorem rstInStep_next {completes : Bool} {s u : State} (h : rstInStep completes s = .next u) :
    (∃ v, ready s ∧ completes = true ∧ step s = .next v ∧ u = raiseRst v) ∨
      (¬ (ready s ∧ completes = true) ∧ u = raiseRst s) := by
  unfold rstInStep at h
  split_ifs at h with hc
  · obtain ⟨hready, hcompletes⟩ := hc
    split at h
    · next v hv => exact .inl ⟨v, hready, hcompletes, hv, by simpa using h.symm⟩
    · simp at h
    · simp at h
  · exact .inr ⟨hc, by simpa using h.symm⟩

/-- Everything a write strobe of Memory that is not refused can do. -/
theorem portWrite_next {addr data : Int} {s u : State} (h : portWrite addr data s = .next u) :
    (s.rst = true ∧ inWordRange s.cfg.W data ∧ 0 ≤ addr ∧ addr < s.cfg.NMAX ∧ u = setCell addr.toNat data s) ∨
      ((s.rst = false ∨ ¬ (0 ≤ addr ∧ addr < s.cfg.NMAX)) ∧ u = s) := by
  unfold portWrite at h
  split_ifs at h with hrst hword haddr
  · exact .inl ⟨hrst, hword, haddr.1, haddr.2, by simpa using h.symm⟩
  · exact .inr ⟨.inr haddr, by simpa using h.symm⟩
  · exact .inr ⟨.inl (by simpa using hrst), by simpa using h.symm⟩

/-- Everything a write strobe of `MLEN` that is not refused can do. -/
theorem portWriteMlen_next {n : Int} {s u : State} (h : portWriteMlen n s = .next u) :
    (s.rst = true ∧ 0 ≤ n ∧ n ≤ s.cfg.NMAX ∧ u = setLength n.toNat s) ∨ (s.rst = false ∧ u = s) := by
  unfold portWriteMlen at h
  split_ifs at h with hrst hn
  · exact .inl ⟨hrst, hn.1, hn.2, by simpa using h.symm⟩
  · exact .inr ⟨by simpa using hrst, by simpa using h.symm⟩

end Sys2Proof.Proofs
end

section
/-! SUPPORT. Proofs of the statements of 10_state.md: the status machine, the length and its read port, the output ports,
and reset. -/

namespace Sys2Proof.Proofs

open Sys2Proof.Machine Sys2Proof.Safety Sys2Proof.Laws

/-! ### The step beside the fetch: reset, the gate, and the instruction that stands at `ip` -/

theorem step_inReset {s : State} (hrst : s.rst = true) : step s = .next (cpuReset s) := stepWith_inReset exec hrst

theorem step_stopped {s : State} (hrst : s.rst = false) (hstop : s.status ≠ .running) : step s = .next s :=
  stepWith_held exec hrst (.inl hstop)

theorem step_instr {s : State} {i : Instr} (hready : ready s) (hw : wordsAt s s.ip (encode i)) :
    step s = exec i s :=
  (stepWith_ready exec hready).trans (fetchThen_instr hw)

theorem running_of_ready {s : State} (hready : ready s) : s.status = .running := by
  obtain ⟨-, hrun, -⟩ := hready
  exact hrun

theorem inBounds_of_memRead {s : State} {addr v : Int} (h : memRead s addr = .value v) : inBounds s addr :=
  (memRead_eq_value.1 h).1

theorem stepAccesses_of_not_ready {s : State} (h : ¬ ready s) : stepAccesses s = [] := if_neg h

/-! ### The status transitions (10_state.md R23) -/

/-- The three ways the step of a ready core can go: the status it leaves, and what stood at `ip`. -/
theorem step_ready_status {s u : State} (hready : ready s) (h : step s = .next u) :
    (u.status = .running ∧ ∃ i, wordsAt s s.ip (encode i) ∧ ArithInBounds i s) ∨
      (u.status = .halted ∧ wordsAt s s.ip (encode .hlt)) ∨
      (u.status = .faulted ∧ (u.faultKind = .memoryFault ∨ u.faultKind = .invalidOpcode)) := by
  rcases step_ready_next hready h with ⟨a, b, t, va, vb, hw, ha, hb, ht, rfl⟩ |
    ⟨a, b, t, va, vb, hw, ha, hb, ht, rfl⟩ | ⟨hw, rfl⟩ | ⟨op, addr, -, -, -, ⟨-, rfl⟩ | ⟨-, rfl⟩⟩ |
    ⟨op, -, -, rfl⟩ | ⟨-, rfl⟩
  · exact .inl ⟨running_of_ready hready, .add a b t, hw, inBounds_of_memRead ha, inBounds_of_memRead hb, ht⟩
  · exact .inl ⟨running_of_ready hready, .mul a b t, hw, inBounds_of_memRead ha, inBounds_of_memRead hb, ht⟩
  · exact .inr (.inl ⟨rfl, hw⟩)
  · exact .inr (.inr ⟨rfl, .inl rfl⟩)
  · exact .inr (.inr ⟨rfl, .inl rfl⟩)
  · exact .inr (.inr ⟨rfl, .inr rfl⟩)
  · exact .inr (.inr ⟨rfl, .inl rfl⟩)

/-- With all three operands in bounds the body of ADD and MUL has no fault to raise. -/
theorem arith_keeps_status {alu : Int → Int → Int} {a b t : Int} {s u : State}
    (hb : inBounds s a ∧ inBounds s b ∧ inBounds s t) (h : arith alu a b t s = .next u) : u.status = s.status := by
  obtain ⟨ha, hb, ht⟩ := hb
  rcases arith_next h with ⟨va, vb, -, -, -, rfl⟩ | ⟨addr, rfl | rfl | rfl, hout, -⟩
  · rfl
  · exact absurd ha hout
  · exact absurd hb hout
  · exact absurd ht hout

theorem exec_keeps_status {i : Instr} {s u : State} (hb : ArithInBounds i s) (h : exec i s = .next u) :
    u.status = s.status := by
  cases i with
  | add a b t => exact arith_keeps_status hb h
  | mul a b t => exact arith_keeps_status hb h
  | hlt => exact hb.elim

/-- The step goes on running exactly on an ADD or MUL whose operands are in bounds. -/
theorem step_running_iff {s u : State} (hready : ready s) (h : step s = .next u) :
    u.status = .running ↔ ∃ i, wordsAt s s.ip (encode i) ∧ ArithInBounds i s := by
  constructor
  · intro hu
    rcases step_ready_status hready h with ⟨-, hi⟩ | ⟨hu', -⟩ | ⟨hu', -⟩
    · exact hi
    · simp [hu'] at hu
    · simp [hu'] at hu
  · rintro ⟨i, hw, hb⟩
    rw [step_instr hready hw] at h
    exact (exec_keeps_status hb h).trans (running_of_ready hready)

/-- The step halts exactly on HLT. -/
theorem step_halted_iff {s u : State} (hready : ready s) (h : step s = .next u) :
    u.status = .halted ↔ wordsAt s s.ip (encode .hlt) := by
  constructor
  · intro hu
    rcases step_ready_status hready h with ⟨hu', -⟩ | ⟨-, hw⟩ | ⟨hu', -⟩
    · simp [hu'] at hu
    · exact hw
    · simp [hu'] at hu
  · intro hw
    rw [step_instr hready hw] at h
    obtain rfl : setStatus .halted (setIp (s.ip + 1) s) = u := by simpa [exec, execHlt] using h
    rfl

/-- A step that faults records a fault kind. -/
theorem step_faulted_kind {s u : State} (hready : ready s) (h : step s = .next u) (hu : u.status = .faulted) :
    u.faultKind = .memoryFault ∨ u.faultKind = .invalidOpcode := by
  rcases step_ready_status hready h with ⟨hu', -⟩ | ⟨hu', -⟩ | ⟨-, hkind⟩
  · simp [hu'] at hu
  · simp [hu'] at hu
  · exact hkind

theorem portStep_keeps_status {mv : HostMove} {s u : State} (hmv : raisesRst mv = false)
    (h : portStep mv s = .next u) : u.status = s.status := by
  cases mv with
  | driveRst level =>
    obtain rfl : level = false := hmv
    rcases releaseRst_next h with ⟨-, rfl⟩ | ⟨-, -, -, rfl⟩ <;> rfl
  | rstMidStep completes => simp [raisesRst] at hmv
  | driveEn level => cases h; rfl
  | writeMem addr data => rcases portWrite_next h with ⟨-, -, -, -, rfl⟩ | ⟨-, rfl⟩ <;> rfl
  | readMem addr => cases h; rfl
  | writeMlen n => rcases portWriteMlen_next h with ⟨-, -, -, rfl⟩ | ⟨-, rfl⟩ <;> rfl

/-- A move that raises `rst` ends in a rise of it, after a completed step or at once. -/
theorem portStep_raises {mv : HostMove} {s u : State} (hmv : raisesRst mv = true) (h : portStep mv s = .next u) :
    ∃ v, (v = s ∨ step s = .next v) ∧ u = raiseRst v := by
  cases mv with
  | driveRst level =>
    obtain rfl : level = true := hmv
    exact ⟨s, .inl rfl, by simpa [portStep] using h.symm⟩
  | rstMidStep completes =>
    rcases rstInStep_next h with ⟨v, -, -, hv, hu⟩ | ⟨-, hu⟩
    · exact ⟨v, .inr hv, hu⟩
    · exact ⟨s, .inl rfl, hu⟩
  | driveEn level => simp [raisesRst] at hmv
  | writeMem addr data => simp [raisesRst] at hmv
  | readMem addr => simp [raisesRst] at hmv
  | writeMlen n => simp [raisesRst] at hmv

/-- Settles O9: the three ways of a ready step, read in both directions, the gate, and what each host move does. -/
theorem statusTransitionsExact : Obligations.StatusTransitionsExact := by
  refine ⟨fun s u hready h => ?_, fun s u hrst hstop h => ?_, fun s u mv => portStep_keeps_status,
    fun s u mv hmv h => ?_, rfl, rfl⟩
  · exact ⟨step_running_iff hready h, step_halted_iff hready h, step_faulted_kind hready h⟩
  · obtain rfl : s = u := by simpa [step_stopped hrst hstop] using h
    exact ⟨rfl, stepAccesses_of_not_ready fun hready => hstop (running_of_ready hready)⟩
  · obtain ⟨v, -, rfl⟩ := portStep_raises hmv h
    rfl

/-! ### What no step changes (10_state.md R28; 40_sequencer.md R111 (b)) -/

/-- Settles O10: in reset, held, or on any way of a ready step, the answer is made of updates of other fields. -/
theorem stepKeepsConfigAndLength : Obligations.StepKeepsConfigAndLength := by
  intro s u h
  rcases gate_cases s with hrst | hready | ⟨hrst, hheld⟩
  · obtain rfl : cpuReset s = u := by simpa [step_inReset hrst] using h
    simp
  · rcases step_ready_next hready h with ⟨a, b, t, va, vb, -, -, -, -, rfl⟩ |
      ⟨a, b, t, va, vb, -, -, -, -, rfl⟩ | ⟨-, rfl⟩ | ⟨op, addr, -, -, -, ⟨-, rfl⟩ | ⟨-, rfl⟩⟩ |
      ⟨op, -, -, rfl⟩ | ⟨-, rfl⟩ <;> simp
  · obtain rfl : s = u := by simpa [step, stepWith_held exec hrst hheld] using h
    simp

/-! ### The host's read of `MLEN` (10_state.md R33) -/

theorem portReadMlen_congr {s u : State} (hlen : u.mlen = s.mlen) (hwritten : u.mlenWritten = s.mlenWritten) :
    portReadMlen u = portReadMlen s := by
  rw [portReadMlen, portReadMlen, hlen, hwritten]

theorem portReadMlen_setLength {n : Int} (hn : 0 ≤ n) (s : State) : portReadMlen (setLength n.toNat s) = some n := by
  simp [portReadMlen, hn]

theorem step_keeps_portReadMlen {s u : State} (h : step s = .next u) : portReadMlen u = portReadMlen s := by
  obtain ⟨-, hlen, hwritten, -, -⟩ := stepKeepsConfigAndLength s u h
  exact portReadMlen_congr hlen hwritten

theorem raiseRst_keeps_portReadMlen (s : State) : portReadMlen (raiseRst s) = portReadMlen s := rfl

theorem portStep_keeps_portReadMlen {mv : HostMove} {s u : State} (hmv : writesMlen mv = false ∨ s.rst = false)
    (h : portStep mv s = .next u) : portReadMlen u = portReadMlen s := by
  cases hraise : raisesRst mv with
  | true =>
    obtain ⟨v, rfl | hv, rfl⟩ := portStep_raises hraise h
    · exact raiseRst_keeps_portReadMlen v
    · exact (raiseRst_keeps_portReadMlen v).trans (step_keeps_portReadMlen hv)
  | false =>
    cases mv with
    | driveRst level =>
      obtain rfl : level = false := hraise
      rcases releaseRst_next h with ⟨-, rfl⟩ | ⟨-, -, -, rfl⟩ <;> rfl
    | rstMidStep completes => simp [raisesRst] at hraise
    | driveEn level => cases h; rfl
    | writeMem addr data => rcases portWrite_next h with ⟨-, -, -, -, rfl⟩ | ⟨-, rfl⟩ <;> rfl
    | readMem addr => cases h; rfl
    | writeMlen n =>
      rcases portWriteMlen_next h with ⟨hrst, -⟩ | ⟨-, rfl⟩
      · simp [writesMlen, hrst] at hmv
      · rfl

/-- Settles O48: only a write of `MLEN` under reset touches what `portReadMlen` shows. -/
theorem lengthReadsBackAsWritten : Obligations.LengthReadsBackAsWritten := by
  refine ⟨fun s u n hrst h => ?_, fun s u => step_keeps_portReadMlen, fun mv s u => portStep_keeps_portReadMlen,
    fun s hwritten => by simp [portReadMlen, hwritten]⟩
  rcases portWriteMlen_next h with ⟨-, hn, hcap, rfl⟩ | ⟨hrst', -⟩
  · exact ⟨portReadMlen_setLength hn s, hn, hcap⟩
  · simp [hrst] at hrst'

/-! ### The output ports (10_state.md R24, R25, R27, R32) -/

/-- A word read back from its `W` bits is itself, by the uniqueness half of `wrapW_eq_iff`. -/
theorem toInt_ofInt_word {W : Nat} {v : Int} (hW : 1 ≤ W) (hv : inWordRange W v) : (BitVec.ofInt W v).toInt = v := by
  rw [BitVec.toInt_ofInt]
  exact (wrapW_eq_iff hW).2 ⟨hv, by simp⟩

/-- An address up to the capacity is a word that is not negative, so its port reads the same unsigned and signed. -/
theorem ofNat_reads_back {c : Config} {n : Nat} (hc : c.wf) (hn : n ≤ c.NMAX) :
    (BitVec.ofNat c.W n).toNat = n ∧ (BitVec.ofNat c.W n).toInt = n := by
  obtain ⟨hW, hcap⟩ := hc
  have hpos : 0 < 2 ^ (c.W - 1) := Nat.two_pow_pos _
  have hlt : n < 2 ^ (c.W - 1) := by omega
  have hword : inWordRange c.W n := by
    have hcast : (n : Int) < 2 ^ (c.W - 1) := by exact_mod_cast hlt
    constructor <;> omega
  refine ⟨?_, ?_⟩
  · rw [BitVec.toNat_ofNat, Nat.mod_eq_of_lt (hlt.trans_le (Nat.pow_le_pow_right (by omega) (Nat.sub_le ..)))]
  · rw [← BitVec.ofInt_natCast]
    exact toInt_ofInt_word (by omega) hword

/-- The address in the fault record is one of the image or its end, in every status. -/
theorem inv_faultAt_le {s : State} (h : Inv s) : s.faultAt ≤ s.mlen := by
  by_cases hf : s.status = .faulted
  · obtain ⟨-, hle, -⟩ := h.faulted hf
    exact hle
  · obtain ⟨-, -, hzero⟩ := h.clear hf
    simp [hzero]

/-- Settles O47: under the invariant every port shows a word, `ip` and `fault_at` ones that are not negative. -/
theorem outputPortsShowTheState : Obligations.OutputPortsShowTheState := by
  intro s h
  obtain ⟨hwidth, -⟩ := h.config
  have hW : 1 ≤ s.cfg.W := by omega
  exact ⟨ofNat_reads_back h.config (h.pointer.trans h.length), toInt_ofInt_word hW h.faultValue,
    ofNat_reads_back h.config ((inv_faultAt_le h).trans h.length)⟩

/-- Settles O46: one case for each status; the codes are those of the two tables. -/
theorem flagsAndCodes : Obligations.FlagsAndCodes := by
  refine ⟨fun s => ?_, rfl, rfl⟩
  cases hs : s.status <;> simp [runningFlag, haltedFlag, faultedFlag, hs]

/-! ### Reset (10_state.md R34) -/

/-- Settles O1: both ways into reset go through `cpuReset`, whose values `State.reset` shares. -/
theorem resetValues : Obligations.ResetValues :=
  ⟨fun _ => rfl, fun _ => step_inReset, rfl, rfl, rfl, rfl, rfl⟩

end Sys2Proof.Proofs
end

section
/-! SUPPORT. Proofs of the statements of 20_memory.md: a read after a write, a store and the fetch after it, and the
accesses of a step. -/

namespace Sys2Proof.Proofs

open Sys2Proof.Machine Sys2Proof.Safety Sys2Proof.Laws

/-! ### A read after a write (20_memory.md R54) -/

theorem memRead_setCell_same {s : State} {addr : Int} (v : Int) (h : inBounds s addr) :
    memRead (setCell addr.toNat v s) addr = .value v :=
  memRead_eq_value.2 ⟨h, readCell_writeCell_same s.mem addr.toNat v⟩

theorem memRead_setCell_other {s : State} {addr other : Int} (v : Int) (h : inBounds s addr) (hne : other ≠ addr) :
    memRead (setCell addr.toNat v s) other = memRead s other := by
  refine memRead_congr (s := setCell addr.toNat v s) (u := s) rfl other fun ⟨hother, _⟩ => ?_
  obtain ⟨haddr, -⟩ := h
  exact readCell_writeCell_other s.mem addr.toNat other.toNat v (by omega)

/-- Settles O32: an in-bounds store is `setCell`, which keeps the length, so the address is in bounds again for the
second write. -/
theorem readReturnsLastWrite : Obligations.ReadReturnsLastWrite := by
  intro s u ip0 addr v hin h
  obtain rfl : setCell addr.toNat v s = u := by simpa [storing_inBounds hin] using h
  have hread := memRead_setCell_same v hin
  refine ⟨hread, fun k => reading_value hread, fun other => memRead_setCell_other v hin,
    writeCell_wf addr.toNat v, fun w u' h' => ?_⟩
  have hin' : inBounds (setCell addr.toNat v s) addr := hin
  obtain rfl : setCell addr.toNat w (setCell addr.toNat v s) = u' := by simpa [storing_inBounds hin'] using h'
  exact memRead_setCell_same w hin'

/-! ### A store and the fetch after it (20_memory.md R60) -/

/-- The body of ADD and MUL leaves a running core only by its store. -/
theorem arith_running {alu : Int → Int → Int} {a b t : Int} {s u : State} (h : arith alu a b t s = .next u)
    (hu : u.status = .running) :
    ∃ va vb, memRead s a = .value va ∧ memRead s b = .value vb ∧ inBounds s t ∧
      u = setCell t.toNat (alu va vb) (setIp (s.ip + 4) s) := by
  rcases arith_next h with hstore | ⟨addr, -, -, rfl⟩
  · exact hstore
  · simp at hu

/-- What Memory reads as after the body of ADD and MUL completes, the next opcode fetch included, in terms of the
Memory before. -/
theorem arith_store_seen {alu : Int → Int → Int} {a b t : Int} {s u : State} (h : arith alu a b t s = .next u)
    (hu : u.status = .running) :
    u.ip = s.ip + 4 ∧ ∃ va vb, memRead s a = .value va ∧ memRead s b = .value vb ∧
      memRead u t = .value (alu va vb) ∧ (t = s.ip + 4 → memRead u u.ip = .value (alu va vb)) ∧
      ∀ addr, addr ≠ t → memRead u addr = memRead s addr := by
  obtain ⟨va, vb, ha, hb, ht, rfl⟩ := arith_running h hu
  have ht' : inBounds (setIp (s.ip + 4) s) t := ht
  have hread := memRead_setCell_same (alu va vb) ht'
  refine ⟨rfl, va, vb, ha, hb, hread, fun hnext => ?_, fun addr hne => ?_⟩
  · have hfetch : (((setCell t.toNat (alu va vb) (setIp (s.ip + 4) s)).ip : Nat) : Int) = t := by simp [hnext]
    rw [hfetch, hread]
  · rw [memRead_setCell_other _ ht' hne, memRead_setIp]

/-- Settles O20: the step is the body of ADD or MUL, and the exact result is that of the two words read before
the store. -/
theorem storeSeenByNextFetch : Obligations.StoreSeenByNextFetch := by
  intro s u a b t i hi hready hw h hu
  rw [step_instr hready hw] at h
  rcases hi with rfl | rfl
  · obtain ⟨hip, va, vb, ha, hb, hseen⟩ := arith_store_seen (alu := aluAdd s.cfg.W) h hu
    exact ⟨hip, va + vb, by simp [exactResult, ha, hb], hseen⟩
  · obtain ⟨hip, va, vb, ha, hb, hseen⟩ := arith_store_seen (alu := aluMul s.cfg.W) h hu
    exact ⟨hip, va * vb, by simp [exactResult, ha, hb], hseen⟩

/-! ### The accesses of a step (20_memory.md R57) -/

theorem tracing_value {s : State} {addr v : Int} {k : Int → List MemAccess} (h : memRead s addr = .value v) :
    tracing s addr k = .read addr :: k v := by
  simp [tracing, h]

/-- A write is listed after a read only if that read gave a word. -/
theorem write_mem_tracing {s : State} {addr x : Int} {k : Int → List MemAccess}
    (h : MemAccess.write x ∈ tracing s addr k) : ∃ v, memRead s addr = .value v ∧ MemAccess.write x ∈ k v := by
  unfold tracing at h
  split at h
  · next v hv => exact ⟨v, hv, by simpa using h⟩
  · simp at h
  · simp at h

/-- The four words of a format-Q instruction, one read each. -/
theorem wordsAt_quad_iff {s : State} {at0 : Nat} {o a b t : Int} :
    wordsAt s at0 [o, a, b, t] ↔ memRead s at0 = .value o ∧ memRead s (at0 + 1) = .value a ∧
      memRead s (at0 + 2) = .value b ∧ memRead s (at0 + 3) = .value t := by
  constructor
  · intro h
    exact ⟨by simpa using h 0 o rfl, h 1 a rfl, h 2 b rfl, h 3 t rfl⟩
  · rintro ⟨ho, ha, hb, ht⟩
    refine wordsAt_of_each fun j => ?_
    fin_cases j
    · simpa using ho
    · exact ha
    · exact hb
    · exact ht

section
variable {s : State} (hready : ready s)
include hready

theorem stepAccesses_hlt (hop : memRead s s.ip = .value 99) : stepAccesses s = [.read s.ip] := by
  rw [stepAccesses, if_pos hready, tracing_value hop]
  rfl

theorem stepAccesses_invalid {op : Int} (hop : memRead s s.ip = .value op) (hd : decodeOpcode op = none) :
    stepAccesses s = [.read s.ip] := by
  rw [stepAccesses, if_pos hready, tracing_value hop, hd]

/-- After the opcode, ADD and MUL access alike. -/
theorem stepAccesses_quad {op : Int} (hop : memRead s s.ip = .value op) (ho : op = 1 ∨ op = 2) :
    stepAccesses s = .read s.ip :: traceArith s := by
  rw [stepAccesses, if_pos hready, tracing_value hop]
  rcases ho with rfl | rfl <;> rfl

theorem stepAccesses_completes {op a b t va vb : Int} (ho : op = 1 ∨ op = 2) (hw : wordsAt s s.ip [op, a, b, t])
    (hva : memRead s a = .value va) (hvb : memRead s b = .value vb) (hin : inBounds s t) :
    stepAccesses s =
      [.read s.ip, .read (s.ip + 1), .read (s.ip + 2), .read (s.ip + 3), .read a, .read b, .write t] := by
  obtain ⟨hop, ha, hb, ht⟩ := wordsAt_quad_iff.1 hw
  rw [stepAccesses_quad hready hop ho, traceArith, tracing_value ha, tracing_value hb, tracing_value ht,
    tracing_value hva, tracing_value hvb, if_pos hin]

end

/-- 30_encoding.md R82 in both directions. -/
theorem decodeOpcode_eq_some_iff {op : Int} {o : Opcode} : decodeOpcode op = some o ↔ op = opcodeWord o := by
  constructor
  · intro h
    unfold decodeOpcode at h
    split_ifs at h with h1 h2 h3 <;> cases h <;> assumption
  · rintro rfl
    cases o <;> rfl

/-- A write is listed after the opcode only where the operand words and both sources gave words and `t` is in bounds. -/
theorem write_mem_traceArith {s : State} {x : Int} (h : MemAccess.write x ∈ traceArith s) :
    ∃ a b t, memRead s (s.ip + 1) = .value a ∧ memRead s (s.ip + 2) = .value b ∧
      memRead s (s.ip + 3) = .value t ∧ inBounds s a ∧ inBounds s b ∧ inBounds s t := by
  obtain ⟨a, ha, h⟩ := write_mem_tracing h
  obtain ⟨b, hb, h⟩ := write_mem_tracing h
  obtain ⟨t, ht, h⟩ := write_mem_tracing h
  obtain ⟨va, hva, h⟩ := write_mem_tracing h
  obtain ⟨vb, hvb, h⟩ := write_mem_tracing h
  split_ifs at h with hin
  · exact ⟨a, b, t, ha, hb, ht, inBounds_of_memRead hva, inBounds_of_memRead hvb, hin⟩
  · simp at h

/-- A step that lists a write executes an ADD or MUL whose operands are in bounds. -/
theorem write_mem_stepAccesses {s : State} {x : Int} (h : MemAccess.write x ∈ stepAccesses s) :
    ∃ i, wordsAt s s.ip (encode i) ∧ ArithInBounds i s := by
  unfold stepAccesses at h
  split_ifs at h
  · obtain ⟨op, hop, h⟩ := write_mem_tracing h
    split at h
    · next hd =>
      obtain ⟨a, b, t, ha, hb, ht, hin⟩ := write_mem_traceArith h
      obtain rfl := decodeOpcode_eq_some_iff.1 hd
      exact ⟨.add a b t, wordsAt_quad_iff.2 ⟨hop, ha, hb, ht⟩, hin⟩
    · next hd =>
      obtain ⟨a, b, t, ha, hb, ht, hin⟩ := write_mem_traceArith h
      obtain rfl := decodeOpcode_eq_some_iff.1 hd
      exact ⟨.mul a b t, wordsAt_quad_iff.2 ⟨hop, ha, hb, ht⟩, hin⟩
    · simp at h
    · simp at h
  · simp at h

/-- A step that goes on running executed an ADD or MUL whose sources gave words. -/
theorem step_running_words {s u : State} (hready : ready s) (h : step s = .next u) (hu : u.status = .running) :
    ∃ op a b t va vb, (op = 1 ∨ op = 2) ∧ wordsAt s s.ip [op, a, b, t] ∧ memRead s a = .value va ∧
      memRead s b = .value vb ∧ inBounds s t := by
  obtain ⟨i, hw, hb⟩ := (step_running_iff hready h).1 hu
  rw [step_instr hready hw] at h
  cases i with
  | add a b t =>
    obtain ⟨va, vb, hva, hvb, hin, -⟩ := arith_running (alu := aluAdd s.cfg.W) h hu
    exact ⟨1, a, b, t, va, vb, .inl rfl, hw, hva, hvb, hin⟩
  | mul a b t =>
    obtain ⟨va, vb, hva, hvb, hin, -⟩ := arith_running (alu := aluMul s.cfg.W) h hu
    exact ⟨2, a, b, t, va, vb, .inr rfl, hw, hva, hvb, hin⟩
  | hlt => exact hb.elim

/-- A step that faults with `InvalidOpcode` fetched a word that is no opcode. -/
theorem step_invalidOpcode_word {s u : State} (hready : ready s) (h : step s = .next u)
    (hu : u.status = .faulted) (hkind : u.faultKind = .invalidOpcode) :
    ∃ op, memRead s s.ip = .value op ∧ decodeOpcode op = none := by
  rcases step_ready_next hready h with ⟨a, b, t, va, vb, -, -, -, -, rfl⟩ |
    ⟨a, b, t, va, vb, -, -, -, -, rfl⟩ | ⟨-, rfl⟩ | ⟨op, addr, -, -, -, ⟨-, rfl⟩ | ⟨-, rfl⟩⟩ |
    ⟨op, hop, hd, -⟩ | ⟨-, rfl⟩
  · simp [running_of_ready hready] at hu
  · simp [running_of_ready hready] at hu
  · simp at hu
  · simp at hkind
  · simp at hkind
  · exact ⟨op, hop, hd⟩
  · simp at hkind

/-- Settles O33: what stood at `ip` fixes the list; a listed write would mean that the step went on running. -/
theorem accessesPerStep : Obligations.AccessesPerStep := by
  intro s u hready h
  refine ⟨fun hu => ?_, fun hu => ?_, fun ⟨hkind, hu⟩ => ?_, fun hu addr hwrite => ?_⟩
  · obtain ⟨op, a, b, t, va, vb, ho, hw, hva, hvb, hin⟩ := step_running_words hready h hu
    exact ⟨op, a, b, t, ho, hw, stepAccesses_completes hready ho hw hva hvb hin⟩
  · have hw : wordsAt s s.ip [99] := (step_halted_iff hready h).1 hu
    exact stepAccesses_hlt hready (by simpa using hw 0 99 rfl)
  · obtain ⟨op, hop, hd⟩ := step_invalidOpcode_word hready h hu hkind
    exact stepAccesses_invalid hready hop hd
  · have hrun := (step_running_iff hready h).2 (write_mem_stepAccesses hwrite)
    simp [hu] at hrun

end Sys2Proof.Proofs
end

section
/-! SUPPORT. Proofs of the statements of 30_encoding.md: the opcode word, and the words of an instruction packed into
one number and read back. -/

namespace Sys2Proof.Proofs

open Sys2Proof.Machine Sys2Proof.Laws

/-! ### The opcode word (30_encoding.md R82, R87, R88) -/

theorem decodeOpcode_eq_none_iff {op : Int} : decodeOpcode op = none ↔ op ≠ 1 ∧ op ≠ 2 ∧ op ≠ 99 := by
  unfold decodeOpcode
  split_ifs <;> simp_all

/-- Only the opcode decides whether the decoder refuses it; words that are missing make no invalid opcode. -/
theorem decode_invalidOpcode_iff {op : Int} {ws : List Int} :
    decode (op :: ws) = .invalidOpcode op ↔ decodeOpcode op = none := by
  simp only [decode]
  split <;> simp_all

/-- Settles O38: the refusal by `decode_invalidOpcode_iff`, the three values by `decodeOpcode_eq_some_iff`. -/
theorem wholeOpcodeWordCompared : Obligations.WholeOpcodeWordCompared := fun _ _ =>
  ⟨decode_invalidOpcode_iff.trans decodeOpcode_eq_none_iff, decodeOpcode_eq_some_iff, decodeOpcode_eq_some_iff,
    decodeOpcode_eq_some_iff⟩

/-! ### The words of an instruction (30_encoding.md R80, R83) -/

theorem length_encode (i : Instr) : (encode i).length = lengthWords i := by
  cases i <;> rfl

theorem lengthWords_le_max (i : Instr) : lengthWords i ≤ maxLengthWords := by
  cases i <;> simp [lengthWords, maxLengthWords]

theorem decode_encode_append (i : Instr) (rest : List Int) : decode (encode i ++ rest) = .instr i rest := by
  cases i with
  | add a b t => exact RoundTrip.add a b t rest
  | mul a b t => exact RoundTrip.mul a b t rest
  | hlt => exact RoundTrip.hlt rest

theorem opcodeWord_bounds (o : Opcode) : 0 < opcodeWord o ∧ opcodeWord o ≤ 99 := by
  cases o <;> decide

/-- Every opcode fits the narrowest word the spec admits (00_scope.md R5). -/
theorem opcodeWord_inWordRange {W : Nat} (hW : 8 ≤ W) (o : Opcode) : inWordRange W (opcodeWord o) := by
  obtain ⟨hpos, hle⟩ := opcodeWord_bounds o
  have hpow : (2 : Int) ^ 7 ≤ 2 ^ (W - 1) := pow_le_pow_right₀ (by decide) (by omega)
  constructor <;> omega

theorem encode_inWordRange {W : Nat} {i : Instr} (hW : 8 ≤ W) (hi : WellFormed W i) :
    ∀ v ∈ encode i, inWordRange W v := by
  cases i with
  | add a b t =>
    obtain ⟨ha, hb, ht⟩ := hi
    simpa [encode] using ⟨opcodeWord_inWordRange hW .add, ha, hb, ht⟩
  | mul a b t =>
    obtain ⟨ha, hb, ht⟩ := hi
    simpa [encode] using ⟨opcodeWord_inWordRange hW .mul, ha, hb, ht⟩
  | hlt => simpa [encode] using opcodeWord_inWordRange hW .hlt

/-! ### Words packed into one number (30_encoding.md R93) -/

/-- The low `W` bits of a word, as a number. -/
theorem natCast_lowBits (W : Nat) (v : Int) : ((v % 2 ^ W).toNat : Int) = v % 2 ^ W :=
  Int.toNat_of_nonneg (Int.emod_nonneg v (by positivity))

theorem lowBits_lt (W : Nat) (v : Int) : (v % 2 ^ W).toNat < 2 ^ W := by
  zify
  rw [natCast_lowBits]
  exact Int.emod_lt_of_pos v (by positivity)

theorem bitsOfWords_lt (W : Nat) (vs : List Int) : bitsOfWords W vs < 2 ^ (W * vs.length) := by
  induction vs with
  | nil => simp [bitsOfWords]
  | cons v vs ih =>
    calc (v % 2 ^ W).toNat + 2 ^ W * bitsOfWords W vs
        < 2 ^ W * (bitsOfWords W vs + 1) := by linarith [lowBits_lt W v]
      _ ≤ 2 ^ W * 2 ^ (W * vs.length) := Nat.mul_le_mul_left _ ih
      _ = 2 ^ (W * (v :: vs).length) := by rw [← pow_add, List.length_cons, Nat.mul_succ, Nat.add_comm]

/-- The first word of a packed list is recovered, because it is a word congruent to the number modulo `2^W`. -/
theorem wrapW_bitsOfWords_cons {W : Nat} {v : Int} (hW : 1 ≤ W) (hv : inWordRange W v) (vs : List Int) :
    wrapW W (bitsOfWords W (v :: vs) : Int) = v := by
  refine (wrapW_eq_iff hW).2 ⟨hv, ?_⟩
  rw [bitsOfWords]
  push_cast [natCast_lowBits]
  rw [← sub_sub]
  exact dvd_sub Int.dvd_self_sub_emod (dvd_mul_right _ _)

theorem bitsOfWords_cons_div (W : Nat) (v : Int) (vs : List Int) :
    bitsOfWords W (v :: vs) / 2 ^ W = bitsOfWords W vs := by
  rw [bitsOfWords, Nat.add_mul_div_left _ _ (Nat.two_pow_pos W), Nat.div_eq_of_lt (lowBits_lt W v), Nat.zero_add]

/-- Unpacking gives the packed words back, and after them the words of the number 0. -/
theorem wordsOfBits_bitsOfWords {W : Nat} (hW : 1 ≤ W) (k : Nat) {vs : List Int} (hvs : ∀ v ∈ vs, inWordRange W v) :
    wordsOfBits W (vs.length + k) (bitsOfWords W vs) = vs ++ wordsOfBits W k 0 := by
  induction vs with
  | nil => simp [bitsOfWords]
  | cons v vs ih =>
    obtain ⟨hv, hvs⟩ := List.forall_mem_cons.1 hvs
    rw [List.length_cons, Nat.succ_add, wordsOfBits, wrapW_bitsOfWords_cons hW hv, bitsOfWords_cons_div, ih hvs,
      List.cons_append]

/-- The table words of an encoding begin with the words of the instruction: `nbits` covers them, so nothing is cut off. -/
theorem tableWords_encodeBits {W nbits : Nat} {i : Instr} (hW : 8 ≤ W) (hi : WellFormed W i)
    (hbits : W * lengthWords i ≤ nbits) :
    tableWords W nbits (encodeBits W i) =
      encode i ++ wordsOfBits W (maxLengthWords - lengthWords i) 0 := by
  have hlt : encodeBits W i < 2 ^ nbits :=
    calc encodeBits W i < 2 ^ (W * (encode i).length) := bitsOfWords_lt W (encode i)
      _ ≤ 2 ^ nbits := Nat.pow_le_pow_right (by decide) (by rwa [length_encode])
  have hcount : maxLengthWords = (encode i).length + (maxLengthWords - lengthWords i) := by
    rw [length_encode, Nat.add_sub_cancel' (lengthWords_le_max i)]
  rw [tableWords, Nat.mod_eq_of_lt hlt]
  conv_lhs => rw [hcount]
  exact wordsOfBits_bitsOfWords (by omega) _ (encode_inWordRange hW hi)

theorem decodeBits_of_decode {W nbits w : Nat} {i : Instr} {rest : List Int}
    (h : decode (tableWords W nbits w) = .instr i rest) : decodeBits W nbits w = some i := by
  rw [decodeBits, h]

/-- Settles O36: the table words of the encoding are the instruction's own words and zeros, and the decoder reads the
instruction at their head. -/
theorem decodeEncodeBitsAgree : Obligations.DecodeEncodeBitsAgree := by
  intro W nbits i hW hi hbits
  refine decodeBits_of_decode (rest := wordsOfBits W (maxLengthWords - lengthWords i) 0) ?_
  rw [tableWords_encodeBits hW hi hbits, decode_encode_append]

end Sys2Proof.Proofs
end

section
/-! SUPPORT. Proofs of the statements of 40_sequencer.md: the gate, how far `ip` moves, the invariant, and the stop that
every run reaches. -/

namespace Sys2Proof.Proofs

open Sys2Proof.Machine Sys2Proof.Safety Sys2Proof.Laws

/-! ### The gate (40_sequencer.md R100; 70_reset_and_hazards.md R197) -/

/-- Settles O6: it is the gate's own rule `stepWith_held`, for the dispatch `exec`. -/
theorem gateHoldsTheState : Obligations.GateHoldsTheState := fun _ hrst hheld =>
  stepWith_held exec hrst hheld.symm

/-! ### The state a ready step leaves, by the status it ends in -/

section
variable {s u : State} (hready : ready s) (h : step s = .next u)
include hready h

/-- A step that goes on running advances past four words and stores one wrapped result, and nothing else. -/
theorem step_running_next (hu : u.status = .running) :
    ∃ op a b t z, wordsAt s s.ip [op, a, b, t] ∧ inBounds s t ∧
      u = setCell t.toNat (wrapW s.cfg.W z) (setIp (s.ip + 4) s) := by
  obtain ⟨i, hw, hb⟩ := (step_running_iff hready h).1 hu
  rw [step_instr hready hw] at h
  cases i with
  | add a b t =>
    obtain ⟨va, vb, -, -, ht, hstore⟩ := arith_running (alu := aluAdd s.cfg.W) h hu
    exact ⟨1, a, b, t, va + vb, hw, ht, hstore⟩
  | mul a b t =>
    obtain ⟨va, vb, -, -, ht, hstore⟩ := arith_running (alu := aluMul s.cfg.W) h hu
    exact ⟨2, a, b, t, va * vb, hw, ht, hstore⟩
  | hlt => exact hb.elim

theorem step_halted_next (hu : u.status = .halted) :
    memRead s s.ip = .value 99 ∧ u = setStatus .halted (setIp (s.ip + 1) s) := by
  have hw := (step_halted_iff hready h).1 hu
  rw [step_instr hready hw] at h
  exact ⟨by simpa using hw 0 99 rfl, by simpa [exec, execHlt] using h.symm⟩

end

/-- The words of an instruction stand side by side, so the first of its operand words that is out of bounds is at `N`. -/
theorem first_outOfRange_word {s : State} {n : Nat} (hop : inBounds s s.ip) (hn : 1 ≤ n)
    (hbefore : ∀ j : Nat, 1 ≤ j → j < n → ∃ v, memRead s (s.ip + j) = .value v) (hout : ¬ inBounds s (s.ip + n)) :
    (s.ip + n : Int) = s.mlen := by
  obtain ⟨k, rfl⟩ := Nat.exists_eq_add_of_le' hn
  have hlast : inBounds s (s.ip + k) := by
    cases k with
    | zero => simpa using hop
    | succ k =>
      obtain ⟨v, hv⟩ := hbefore (k + 1) (by omega) (by omega)
      exact inBounds_of_memRead hv
  simp only [inBounds] at hlast hout
  omega

theorem inBounds_last_word {s : State} {op a b t : Int} (hw : wordsAt s s.ip [op, a, b, t]) :
    inBounds s (s.ip + 3) := by
  obtain ⟨-, -, -, ht⟩ := wordsAt_quad_iff.1 hw
  exact inBounds_of_memRead ht

theorem inBounds_ip_of_last_word {s : State} (h : inBounds s (s.ip + 3)) : inBounds s s.ip := by
  simp only [inBounds] at h ⊢
  omega

/-- The four ways a ready step faults: at the opcode fetch, on an invalid opcode, at an operand word, or at one of the
three operand addresses. -/
theorem step_faulted_next {s u : State} (hready : ready s) (h : step s = .next u) (hu : u.status = .faulted) :
    (¬ inBounds s s.ip ∧ u = takeFault .memoryFault s.ip s.ip (setIp s.ip s)) ∨
    (∃ op, memRead s s.ip = .value op ∧ u = takeFault .invalidOpcode op s.ip (setIp (s.ip + 1) s)) ∨
    (inBounds s s.ip ∧ ¬ inBounds s (s.ip + 3) ∧ u = takeFault .memoryFault s.mlen s.ip (setIp (s.ip + 1) s)) ∨
    (∃ op a b t addr, wordsAt s s.ip [op, a, b, t] ∧ (addr = a ∨ addr = b ∨ addr = t) ∧
      u = takeFault .memoryFault addr s.ip (setIp (s.ip + 4) s)) := by
  rcases step_ready_next hready h with ⟨a, b, t, va, vb, -, -, -, -, rfl⟩ |
    ⟨a, b, t, va, vb, -, -, -, -, rfl⟩ | ⟨-, rfl⟩ |
    ⟨op, addr, hop, -, hout, ⟨⟨a, b, t, hw, haddr⟩, hu'⟩ | ⟨⟨n, hn, hn3, rfl, hbefore⟩, hu'⟩⟩ |
    ⟨op, hop, -, hu'⟩ | ⟨hout, hu'⟩
  · simp [running_of_ready hready] at hu
  · simp [running_of_ready hready] at hu
  · simp at hu
  · exact .inr (.inr (.inr ⟨op, a, b, t, addr, hw, haddr, hu'⟩))
  · have hin := inBounds_of_memRead hop
    have hend := first_outOfRange_word hin hn hbefore hout
    refine .inr (.inr (.inl ⟨hin, ?_, hend ▸ hu'⟩))
    simp only [inBounds]
    omega
  · exact .inr (.inl ⟨op, hop, hu'⟩)
  · exact .inl ⟨hout, hu'⟩

/-! ### How far `ip` moves (40_sequencer.md R103, decision D7) -/

/-- Settles O11: each status has its inversion lemma above; of the four ways to fault, the bounds of the first and the
last word of the instruction tell which one it was. -/
theorem pointerAdvance : Obligations.PointerAdvance := by
  intro s u hready h
  refine ⟨fun hu => ?_, fun hu => ?_, fun hu => ?_⟩
  · obtain ⟨op, a, b, t, z, -, -, rfl⟩ := step_running_next hready h hu
    rfl
  · obtain ⟨-, rfl⟩ := step_halted_next hready h hu
    rfl
  · rcases step_faulted_next hready h hu with ⟨hout, rfl⟩ | ⟨op, hop, rfl⟩ | ⟨hin, hout, rfl⟩ |
      ⟨op, a, b, t, addr, hw, -, rfl⟩
    · exact ⟨fun _ => rfl, fun hin => absurd hin hout,
        fun _ hlast => absurd (inBounds_ip_of_last_word hlast) hout⟩
    · exact ⟨fun hout => absurd (inBounds_of_memRead hop) hout, fun _ _ => rfl, fun hkind => by simp at hkind⟩
    · exact ⟨fun hout' => absurd hin hout', fun _ _ => rfl, fun _ hlast => absurd hlast hout⟩
    · have hlast := inBounds_last_word hw
      refine ⟨fun hout => absurd (inBounds_ip_of_last_word hlast) hout, fun _ hwhy => ?_, fun _ _ => rfl⟩
      rcases hwhy with hkind | hout
      · simp at hkind
      · exact absurd hlast hout

/-! ### The invariant (40_sequencer.md R111) -/

/-- An address up to the capacity is a word (00_scope.md R6). -/
theorem address_inWordRange {c : Config} {n : Nat} (hc : c.wf) (hn : n ≤ c.NMAX) : inWordRange c.W n := by
  obtain ⟨-, hcap⟩ := hc
  have hpos : 0 < 2 ^ (c.W - 1) := Nat.two_pow_pos _
  have hlt : n < 2 ^ (c.W - 1) := by omega
  have hcast : (n : Int) < 2 ^ (c.W - 1) := by exact_mod_cast hlt
  constructor <;> omega

theorem wrapW_inWordRange {W : Nat} (hW : 1 ≤ W) (z : Int) : inWordRange W (wrapW W z) :=
  ((wrapW_eq_iff hW).1 rfl).1

/-- Reset gives the CPU state values that satisfy the invariant over any legal Memory. -/
theorem inv_cpuReset {s : State} (hconfig : s.cfg.wf) (hlength : s.mlen ≤ s.cfg.NMAX) (hcanonical : Memory.wf s.mem)
    (hcells : ∀ c ∈ s.mem, c.1 < s.cfg.NMAX ∧ inWordRange s.cfg.W c.2) : Inv (cpuReset s) where
  config := hconfig
  length := hlength
  pointer := Nat.zero_le _
  canonical := hcanonical
  cells := hcells
  clear _ := ⟨rfl, rfl, rfl⟩
  running _ := rfl
  halted hs := by simp at hs
  faulted hs := by simp at hs
  faultValue := address_inWordRange hconfig (Nat.zero_le _)
  inReset _ := ⟨rfl, rfl⟩

/-- Settles O2: `State.reset` holds the reset values over the empty Memory. -/
theorem invHoldsAtReset : Obligations.InvHoldsAtReset :=
  inv_cpuReset (s := State.reset) (by decide) (by decide) reset_mem_wf (by simp [State.reset])

section
variable {s : State} (hs : Inv s)
include hs

/-- What a read gives is a word. -/
theorem inv_memRead_word {addr v : Int} (hv : memRead s addr = .value v) : inWordRange s.cfg.W v := by
  obtain ⟨-, hcell⟩ := memRead_eq_value.1 hv
  obtain ⟨-, hword⟩ := hs.cells _ (mem_of_readCell hcell)
  exact hword

theorem inv_wordsAt_word {at0 : Nat} {ws : List Int} {w : Int} (hws : wordsAt s at0 ws) (hw : w ∈ ws) :
    inWordRange s.cfg.W w := by
  obtain ⟨j, hj⟩ := List.mem_iff_getElem?.1 hw
  exact inv_memRead_word hs (hws j w hj)

theorem inv_address_word {n : Nat} (hn : n ≤ s.mlen) : inWordRange s.cfg.W n :=
  address_inWordRange hs.config (hn.trans hs.length)

variable (hready : ready s)
include hready

/-- Advancing `ip` by one whole instruction and storing a word in bounds. -/
theorem inv_store {t : Int} (z : Int) (hlast : inBounds s (s.ip + 3)) (ht : inBounds s t) :
    Inv (setCell t.toNat (wrapW s.cfg.W z) (setIp (s.ip + 4) s)) := by
  obtain ⟨hrst, hrun, -⟩ := hready
  obtain ⟨hwidth, -⟩ := hs.config
  have hW : 1 ≤ s.cfg.W := by omega
  have hlength := hs.length
  simp only [inBounds] at hlast ht
  exact
    { hs with
      pointer := by
        show s.ip + 4 ≤ s.mlen
        omega
      canonical := writeCell_wf _ _ hs.canonical
      cells := fun c hc => by
        rcases mem_writeCell hc with rfl | hc
        · refine ⟨?_, wrapW_inWordRange hW z⟩
          show t.toNat < s.cfg.NMAX
          omega
        · exact hs.cells c hc
      running := fun _ => by
        have := hs.running hrun
        show (s.ip + 4) % 4 = 0
        omega
      halted := fun hst => by simp [hrun] at hst
      inReset := fun hrst' => by simp [hrst] at hrst' }

/-- Halting on the word 99. -/
theorem inv_halt (hop : memRead s s.ip = .value 99) : Inv (setStatus .halted (setIp (s.ip + 1) s)) := by
  obtain ⟨hrst, hrun, -⟩ := hready
  obtain ⟨hin, hcell⟩ := memRead_eq_value.1 hop
  have halign := hs.running hrun
  exact
    { hs with
      pointer := by
        show s.ip + 1 ≤ s.mlen
        omega
      clear := fun _ => hs.clear (by simp [hrun])
      running := fun hst => by simp at hst
      halted := fun _ => by
        refine ⟨Nat.le_add_left .., ?_, by simpa using hcell⟩
        show (s.ip + 1) % 4 = 1
        omega
      faulted := fun hst => by simp at hst
      inReset := fun hrst' => by simp [hrst] at hrst' }

/-- Taking a fault with `ip` at most `N` and a word in the record. -/
theorem inv_takeFault {kind : FaultKind} {value : Int} {n : Nat} (hkind : kind ≠ .none)
    (hvalue : inWordRange s.cfg.W value) (hn : n ≤ s.mlen) : Inv (takeFault kind value s.ip (setIp n s)) := by
  obtain ⟨hrst, hrun, -⟩ := hready
  exact
    { hs with
      pointer := hn
      clear := fun hst => by simp at hst
      running := fun hst => by simp at hst
      halted := fun hst => by simp at hst
      faulted := fun _ => ⟨hkind, hs.pointer, hs.running hrun⟩
      faultValue := hvalue
      inReset := fun hrst' => by simp [hrst] at hrst' }

/-- A fault of a ready step records a word and leaves `ip` at most `N`, whichever of the four it is. -/
theorem inv_step_faulted {u : State} (h : step s = .next u) (hu : u.status = .faulted) : Inv u := by
  rcases step_faulted_next hready h hu with ⟨-, rfl⟩ | ⟨op, hop, rfl⟩ | ⟨hin, -, rfl⟩ |
    ⟨op, a, b, t, addr, hw, haddr, rfl⟩
  · exact inv_takeFault hs hready (by simp) (inv_address_word hs hs.pointer) hs.pointer
  · obtain ⟨-, hlt⟩ := inBounds_of_memRead hop
    exact inv_takeFault hs hready (by simp) (inv_memRead_word hs hop) (by omega)
  · obtain ⟨-, hlt⟩ := hin
    exact inv_takeFault hs hready (by simp) (inv_address_word hs le_rfl) (by omega)
  · have hword : inWordRange s.cfg.W addr := inv_wordsAt_word hs hw (by rcases haddr with rfl | rfl | rfl <;> simp)
    obtain ⟨-, hlt⟩ := inBounds_last_word hw
    exact inv_takeFault hs hready (by simp) hword (by omega)

end

/-- Settles O3: in reset the CPU state is that of `inv_cpuReset`, a held core keeps its state, and a ready one ends in
one of the three statuses, each with its own rule above. -/
theorem stepKeepsInv : Obligations.StepKeepsInv := by
  intro s u hs h
  rcases gate_cases s with hrst | hready | ⟨hrst, hheld⟩
  · obtain rfl : cpuReset s = u := by simpa [step_inReset hrst] using h
    exact inv_cpuReset hs.config hs.length hs.canonical hs.cells
  · cases hu : u.status with
    | running =>
      obtain ⟨op, a, b, t, z, hw, ht, rfl⟩ := step_running_next hready h hu
      exact inv_store hs hready z (inBounds_last_word hw) ht
    | halted =>
      obtain ⟨hop, rfl⟩ := step_halted_next hready h hu
      exact inv_halt hs hready hop
    | faulted => exact inv_step_faulted hs hready h hu
  · obtain rfl : s = u := by simpa [gateHoldsTheState s hrst hheld.symm] using h
    exact hs

/-! ### After the stop (40_sequencer.md R111 (f)) -/

theorem iterateStep_succ {f : State → Result} {s v : State} (n : Nat) (h : f s = .next v) :
    iterateStep f (n + 1) s = iterateStep f n v := by
  simp [iterateStep, h]

theorem iterateStep_stopped {s : State} (hrst : s.rst = false) (hstop : s.status ≠ .running) (n : Nat) :
    iterateStep step n s = .next s := by
  induction n with
  | zero => rfl
  | succ n ih => rw [iterateStep_succ n (step_stopped hrst hstop), ih]

/-- Outside reset the ports of Memory and of `MLEN` do nothing, so a move that leaves `rst` low can only drive `en`. -/
theorem portStep_of_rst_low {mv : HostMove} {s : State} (hrst : s.rst = false) (hmv : raisesRst mv = false) :
    ∃ level, portStep mv s = .next { s with en := level } := by
  cases mv with
  | driveRst level =>
    obtain rfl : level = false := hmv
    exact ⟨s.en, if_neg (by simp [hrst])⟩
  | rstMidStep completes => simp [raisesRst] at hmv
  | driveEn level => exact ⟨level, rfl⟩
  | writeMem addr data => exact ⟨s.en, if_neg (by simp [hrst])⟩
  | readMem addr => exact ⟨s.en, rfl⟩
  | writeMlen n => exact ⟨s.en, if_neg (by simp [hrst])⟩

theorem portSteps_of_rst_low {mvs : List HostMove} {s : State} (hrst : s.rst = false)
    (hmvs : ∀ mv ∈ mvs, raisesRst mv = false) : ∃ level, portSteps mvs s = .next { s with en := level } := by
  induction mvs generalizing s with
  | nil => exact ⟨s.en, rfl⟩
  | cons mv mvs ih =>
    obtain ⟨hmv, hmvs⟩ := List.forall_mem_cons.1 hmvs
    obtain ⟨level, hfirst⟩ := portStep_of_rst_low hrst hmv
    obtain ⟨level', hrest⟩ := ih (s := { s with en := level }) hrst hmvs
    exact ⟨level', by simp [portSteps, hfirst, hrest]⟩

/-- Settles O12: step requests are held by the gate, and host moves by the level of `rst`. -/
theorem stoppedUntilReset : Obligations.StoppedUntilReset := fun _ hrst hstop =>
  ⟨iterateStep_stopped hrst hstop, fun _ => portSteps_of_rst_low hrst⟩

/-! ### Over a total image the model answers every step (70_reset_and_hazards.md R193) -/

/-- The answer is a next state whose image is total. -/
def TotalAnswer (o : Result) : Prop := ∃ u, o = .next u ∧ totalImage u

theorem totalImage_setCell {s : State} (a : Nat) (v : Int) (h : totalImage s) : totalImage (setCell a v s) := by
  intro b hb
  rw [setCell_mem, readCell_writeCell]
  split_ifs
  · rfl
  · exact h b hb

section
variable {s : State} (h : totalImage s)
include h

theorem totalAnswer_takeFault (kind : FaultKind) (value : Int) (ip0 : Nat) :
    TotalAnswer (.next (takeFault kind value ip0 s)) := ⟨_, rfl, h⟩

theorem totalAnswer_reading (ip0 : Nat) (addr : Int) {k : Int → Result} (hk : ∀ v, TotalAnswer (k v)) :
    TotalAnswer (reading s ip0 addr k) := by
  cases hread : memRead s addr with
  | value v => simpa [reading_value hread] using hk v
  | outOfRange => simpa [reading_outOfRange hread] using totalAnswer_takeFault h _ _ _
  | unwritten => exact absurd hread (memRead_total h addr)

theorem totalAnswer_storing (ip0 : Nat) (addr v : Int) : TotalAnswer (storing s ip0 addr v) := by
  by_cases hin : inBounds s addr
  · exact ⟨_, storing_inBounds hin, totalImage_setCell _ _ h⟩
  · exact ⟨_, storing_outOfRange hin, h⟩

theorem totalAnswer_operandWords (ip0 : Nat) {k : Int → Int → Int → Result} (hk : ∀ a b t, TotalAnswer (k a b t)) :
    TotalAnswer (operandWords s ip0 k) :=
  totalAnswer_reading h ip0 _ fun a =>
    totalAnswer_reading h ip0 _ fun b =>
      totalAnswer_reading h ip0 _ fun t => hk a b t

theorem totalAnswer_arith (alu : Int → Int → Int) (a b t : Int) : TotalAnswer (arith alu a b t s) := by
  have h1 : totalImage (setIp (s.ip + 4) s) := h
  exact totalAnswer_reading h1 _ a fun va =>
    totalAnswer_reading h1 _ b fun vb => totalAnswer_storing h1 _ t (alu va vb)

theorem totalAnswer_exec (i : Instr) : TotalAnswer (exec i s) := by
  cases i with
  | add a b t => exact totalAnswer_arith h _ a b t
  | mul a b t => exact totalAnswer_arith h _ a b t
  | hlt => exact ⟨_, rfl, h⟩

theorem totalAnswer_fetchThen {k : Instr → Result} (hk : ∀ i, TotalAnswer (k i)) : TotalAnswer (fetchThen s k) := by
  have h1 : totalImage (setIp (s.ip + 1) s) := h
  refine totalAnswer_reading h _ _ fun op => ?_
  cases decodeOpcode op with
  | none => exact totalAnswer_takeFault h1 _ _ _
  | some o =>
    cases o with
    | add => exact totalAnswer_operandWords h1 _ fun a b t => hk (.add a b t)
    | mul => exact totalAnswer_operandWords h1 _ fun a b t => hk (.mul a b t)
    | hlt => exact hk .hlt

theorem totalAnswer_step : TotalAnswer (step s) := by
  rcases gate_cases s with hrst | hready | ⟨hrst, hheld⟩
  · exact ⟨_, step_inReset hrst, h⟩
  · rw [step, stepWith_ready exec hready]
    exact totalAnswer_fetchThen h (totalAnswer_exec h)
  · exact ⟨s, gateHoldsTheState s hrst hheld.symm, h⟩

end

/-! ### Every run stops (40_sequencer.md R107) -/

theorem iterateStep_add {f : State → Result} {n : Nat} {s u : State} (m : Nat) (h : iterateStep f n s = .next u) :
    iterateStep f (n + m) s = iterateStep f m u := by
  induction n generalizing s with
  | zero =>
    obtain rfl : s = u := by simpa [iterateStep] using h
    rw [Nat.zero_add]
  | succ n ih =>
    unfold iterateStep at h
    split at h
    · next v hv => rw [Nat.succ_add, iterateStep_succ _ hv, ih h]
    · simp at h
    · simp at h

/-- A ready core whose `ip` is less than `4 * n` words below the end stops within `n` steps: a step that goes on
running moves `ip` by 4, and the invariant bounds it by `N`. -/
theorem iterateStep_stops {n : Nat} {s : State} (hs : Inv s) (himage : totalImage s) (hready : ready s)
    (hleft : s.mlen < s.ip + 4 * n) :
    ∃ u, iterateStep step n s = .next u ∧ u.rst = false ∧ u.status ≠ .running := by
  induction n generalizing s with
  | zero =>
    have := hs.pointer
    omega
  | succ n ih =>
    obtain ⟨v, hv, himage'⟩ := totalAnswer_step himage
    obtain ⟨-, hlen, -, hrst, hen⟩ := stepKeepsConfigAndLength s v hv
    obtain ⟨hadvance, -, -⟩ := pointerAdvance s v hready hv
    obtain ⟨hrst0, -, hen0⟩ := hready
    rw [iterateStep_succ n hv]
    by_cases hrun : v.status = .running
    · exact ih (stepKeepsInv s v hs hv) himage' ⟨hrst.trans hrst0, hrun, hen.trans hen0⟩
        (by rw [hlen, hadvance hrun]; omega)
    · exact ⟨v, iterateStep_stopped (hrst.trans hrst0) hrun n, hrst.trans hrst0, hrun⟩

/-- Settles O13: `N < 4 * (N / 4 + 1)`, so `iterateStep_stops` bounds the run; the gate holds what it stopped in. -/
theorem runStopsWithinBound : Obligations.RunStopsWithinBound := by
  intro s hs himage hready
  obtain ⟨u, hrun, hrst, hstop⟩ := iterateStep_stops (n := s.mlen / 4 + 1) hs himage hready (by omega)
  exact ⟨u, hrun, hstop, fun m => (iterateStep_add m hrun).trans (iterateStep_stopped hrst hstop m)⟩

end Sys2Proof.Proofs
end

section
/-! SUPPORT. Proofs of the statements of 41_arithmetic.md: the rules of ADD and MUL, their overflow, and the agreement
with the source's unbounded arithmetic. -/

namespace Sys2Proof.Proofs

open Sys2Proof.Machine Sys2Proof.Safety Sys2Proof.Laws

/-! ### The source's unbounded arithmetic (41_arithmetic.md R126)

Each operation that goes on with what it read answers alike under two continuations that agree on the words Memory
holds there. -/

section
variable {s : State}

theorem reading_congr {ip0 : Nat} {addr : Int} {k k' : Int → Result}
    (h : ∀ v, memRead s addr = .value v → k v = k' v) : reading s ip0 addr k = reading s ip0 addr k' := by
  unfold reading
  split
  · next v hv => exact h v hv
  · rfl
  · rfl

theorem operandWords_congr {ip0 : Nat} {k k' : Int → Int → Int → Result}
    (h : ∀ a b t, memRead s (ip0 + 1) = .value a → memRead s (ip0 + 2) = .value b →
      memRead s (ip0 + 3) = .value t → k a b t = k' a b t) :
    operandWords s ip0 k = operandWords s ip0 k' :=
  reading_congr fun a ha => reading_congr fun b hb => reading_congr fun t ht => h a b t ha hb ht

/-- The fetch goes on only with an instruction whose words stand at `ip`. -/
theorem fetchThen_congr {k k' : Instr → Result} (h : ∀ i, wordsAt s s.ip (encode i) → k i = k' i) :
    fetchThen s k = fetchThen s k' := by
  refine reading_congr fun op hop => ?_
  cases hd : decodeOpcode op with
  | none => rfl
  | some o =>
    obtain rfl := decodeOpcode_eq_some_iff.1 hd
    cases o with
    | add =>
      exact operandWords_congr fun a b t ha hb ht => h (.add a b t) (wordsAt_quad_iff.2 ⟨hop, ha, hb, ht⟩)
    | mul =>
      exact operandWords_congr fun a b t ha hb ht => h (.mul a b t) (wordsAt_quad_iff.2 ⟨hop, ha, hb, ht⟩)
    | hlt =>
      refine h .hlt (wordsAt_of_each fun j => ?_)
      fin_cases j
      simpa [encode] using hop

/-- The body of ADD and MUL asks its ALU for the result on the two source words alone. -/
theorem arith_congr {alu alu' : Int → Int → Int} {a b t : Int}
    (h : ∀ va vb, memRead s a = .value va → memRead s b = .value vb → alu va vb = alu' va vb) :
    arith alu a b t s = arith alu' a b t s := by
  refine reading_congr fun va ha => reading_congr fun vb hb => ?_
  rw [memRead_setIp] at ha hb
  exact congrArg (storing (setIp (s.ip + 4) s) s.ip t) (h va vb ha hb)

/-- A word is its own wrap (00_scope.md R8). -/
theorem wrapW_of_inWordRange {W : Nat} {z : Int} (hW : 1 ≤ W) (hz : inWordRange W z) : wrapW W z = z :=
  (wrapW_eq_iff hW).2 ⟨hz, by simp⟩

theorem one_le_width {c : Config} (hc : c.wf) : 1 ≤ c.W := by
  obtain ⟨hW, -⟩ := hc
  omega

/-- With no overflow the wrap changes nothing, so the two dispatches agree. -/
theorem sourceExec_eq_exec {i : Instr} (hW : 1 ≤ s.cfg.W)
    (hfree : ∀ z, exactResult i s = some z → inWordRange s.cfg.W z) : sourceExec i s = exec i s := by
  cases i with
  | add a b t =>
    refine arith_congr fun va vb ha hb => (wrapW_of_inWordRange hW ?_).symm
    exact hfree (va + vb) (by simp [exactResult, ha, hb])
  | mul a b t =>
    refine arith_congr fun va vb ha hb => (wrapW_of_inWordRange hW ?_).symm
    exact hfree (va * vb) (by simp [exactResult, ha, hb])
  | hlt => rfl

/-- The gate is shared; past it, the two dispatches meet only in an instruction that stands at `ip`. -/
theorem sourceStep_eq_step (hW : 1 ≤ s.cfg.W) (hfree : OverflowFree s) : sourceStep s = step s := by
  unfold sourceStep step
  rcases gate_cases s with hrst | hready | ⟨hrst, hheld⟩
  · rw [stepWith_inReset _ hrst, stepWith_inReset _ hrst]
  · rw [stepWith_ready _ hready, stepWith_ready _ hready]
    exact fetchThen_congr fun i hw => sourceExec_eq_exec hW fun z => hfree hready i z hw
  · rw [stepWith_held _ hrst hheld, stepWith_held _ hrst hheld]

theorem overflowFreeRun_head {n : Nat} (h : OverflowFreeRun (n + 1) s) : OverflowFree s :=
  h 0 s n.succ_pos rfl

theorem overflowFreeRun_tail {n : Nat} {v : State} (h : OverflowFreeRun (n + 1) s) (hv : step s = .next v) :
    OverflowFreeRun n v := fun j u hj hu =>
  h (j + 1) u (Nat.succ_lt_succ hj) ((iterateStep_succ j hv).trans hu)

end

/-- Settles O26, by induction on the number of steps: the first step does not overflow, so the machines take it alike
(`sourceStep_eq_step`), and where it answers a next state the rest of the run is overflow-free from there. -/
theorem overflowFreeRunMatchesSource : Obligations.OverflowFreeRunMatchesSource := by
  intro n s hcfg hfree
  induction n generalizing s with
  | zero => rfl
  | succ n ih =>
    rw [iterateStep, iterateStep, sourceStep_eq_step (one_le_width hcfg) (overflowFreeRun_head hfree)]
    cases hv : step s with
    | next v =>
      obtain ⟨hsame, -⟩ := stepKeepsConfigAndLength s v hv
      exact ih v (hsame ▸ hcfg) (overflowFreeRun_tail hfree hv)
    | fault r => rfl
    | refused r => rfl

/-! ### ADD and MUL, whole (41_arithmetic.md R120, R121) -/

section
variable {s : State} {n : Nat} {addr : Int}

/-- An access is not affected by an advance of `ip`. -/
theorem reading_setIp_value {ip0 : Nat} {v : Int} {k : Int → Result} (h : memRead s addr = .value v) :
    reading (setIp n s) ip0 addr k = k v :=
  reading_value ((memRead_setIp n s addr).trans h)

/-- A failed access after an advance of `ip` leaves the state that `faultedState` writes out. -/
theorem reading_setIp_outOfBounds {k : Int → Result} (h : ¬ inBounds s addr) :
    reading (setIp n s) s.ip addr k = .next (faultedState s n .memoryFault addr) :=
  reading_outOfRange ((memRead_setIp n s addr).trans (memRead_eq_outOfRange.2 h))

theorem storing_setIp_outOfBounds {v : Int} (h : ¬ inBounds s addr) :
    storing (setIp n s) s.ip addr v = .next (faultedState s n .memoryFault addr) :=
  storing_outOfRange (s := setIp n s) h

theorem storing_setIp_inBounds {ip0 : Nat} {v : Int} (h : inBounds s addr) :
    storing (setIp n s) ip0 addr v = .next { s with ip := n, mem := writeCell s.mem addr.toNat v } :=
  storing_inBounds (s := setIp n s) h

end

/-- Once the opcode word 1 is read, the step of a ready core is the operand reads and then ADD. -/
theorem step_add_fetched {s : State} (hready : ready s) (hop : memRead s s.ip = .value 1) :
    step s = operandWords (setIp (s.ip + 1) s) s.ip fun a b t => execAdd a b t s := by
  rw [step, stepWith_ready _ hready, fetchThen, reading_value hop]
  rfl

/-- Once the opcode word 2 is read, the step of a ready core is the operand reads and then MUL. -/
theorem step_mul_fetched {s : State} (hready : ready s) (hop : memRead s s.ip = .value 2) :
    step s = operandWords (setIp (s.ip + 1) s) s.ip fun a b t => execMul a b t s := by
  rw [step, stepWith_ready _ hready, fetchThen, reading_value hop]
  rfl

/-- The rule of a format-Q instruction, from the operand reads on: one access after the other, each fault where its
bounds check fails and the store at the end. -/
theorem quadRule_of_step {op : Int} {exact : Int → Int → Int} {s : State}
    (h : ready s → memRead s s.ip = .value op →
      step s = operandWords (setIp (s.ip + 1) s) s.ip fun a b t =>
        arith (fun va vb => wrapW s.cfg.W (exact va vb)) a b t s) :
    QuadRule op exact s := by
  intro hready hop
  have hs := h hready hop
  refine ⟨fun hout => hs.trans (reading_setIp_outOfBounds hout), fun a ha => ?_⟩
  replace hs := hs.trans (reading_setIp_value ha)
  refine ⟨fun hout => hs.trans (reading_setIp_outOfBounds hout), fun b hb => ?_⟩
  replace hs := hs.trans (reading_setIp_value hb)
  refine ⟨fun hout => hs.trans (reading_setIp_outOfBounds hout), fun t ht => ?_⟩
  replace hs := hs.trans (reading_setIp_value ht)
  refine ⟨fun hout => hs.trans (reading_setIp_outOfBounds hout), fun va hva => ?_⟩
  replace hs := hs.trans (reading_setIp_value hva)
  refine ⟨fun hout => hs.trans (reading_setIp_outOfBounds hout), fun vb hvb => ?_⟩
  replace hs := hs.trans (reading_setIp_value hvb)
  exact ⟨fun hout => hs.trans (storing_setIp_outOfBounds hout), fun hin => hs.trans (storing_setIp_inBounds hin)⟩

/-- Settles O14: after the opcode 1 the step is the operand reads and `arith` over `aluAdd`, the wrapped exact sum. -/
theorem addFollowsItsRule : Obligations.AddFollowsItsRule := fun _ => quadRule_of_step step_add_fetched

/-- Settles O15: after the opcode 2 the step is the operand reads and `arith` over `aluMul`, the wrapped exact
product. -/
theorem mulFollowsItsRule : Obligations.MulFollowsItsRule := fun _ => quadRule_of_step step_mul_fetched

/-! ### Overlapping operands (41_arithmetic.md R125) -/

/-- The body of ADD and MUL completes when both sources hold a word and the target is in bounds. -/
theorem arith_completes {alu : Int → Int → Int} {s : State} {a b t va vb : Int} (ha : memRead s a = .value va)
    (hb : memRead s b = .value vb) (ht : inBounds s t) :
    arith alu a b t s = .next { s with ip := s.ip + 4, mem := writeCell s.mem t.toNat (alu va vb) } :=
  calc arith alu a b t s
      = reading (setIp (s.ip + 4) s) s.ip b fun vb => storing (setIp (s.ip + 4) s) s.ip t (alu va vb) :=
        reading_setIp_value ha
    _ = storing (setIp (s.ip + 4) s) s.ip t (alu va vb) := reading_setIp_value hb
    _ = _ := storing_setIp_inBounds ht

/-- Settles O21: a cell that holds a word is in bounds, so it is both readable twice and a target. -/
theorem aliasedOperandsReadFirst : Obligations.AliasedOperandsReadFirst := by
  intro s a v hv
  have hin := inBounds_of_memRead hv
  rw [two_mul, sq]
  exact ⟨arith_completes hv hv hin, arith_completes hv hv hin⟩

/-! ### Overflow (41_arithmetic.md R123, R124, decision D2) -/

/-- Settles O23: the sum is off by one modulus at most, and what is left is the word that `wrapW_eq_iff` asks for. -/
theorem additionOverflowRule : Obligations.AdditionOverflowRule := by
  intro W va vb hW ⟨halo, hahi⟩ ⟨hblo, hbhi⟩
  have hmod := two_pow_eq_two_mul_pred hW
  refine ⟨by omega, wrapW_of_inWordRange hW, fun habove => ?_, fun hbelow => ?_⟩
  · exact (wrapW_eq_iff hW).2 ⟨by constructor <;> omega, by simp⟩
  · exact (wrapW_eq_iff hW).2 ⟨by constructor <;> omega, by simp⟩

/-- The product of two integers in `[-M, M - 1]` lies between the products of the bounds. -/
theorem product_bounds {M va vb : Int} (ha : -M ≤ va ∧ va ≤ M - 1) (hb : -M ≤ vb ∧ vb ≤ M - 1) :
    -M ^ 2 + M ≤ va * vb ∧ va * vb ≤ M ^ 2 := by
  obtain ⟨halo, hahi⟩ := ha
  obtain ⟨hblo, hbhi⟩ := hb
  have hM : 1 ≤ M := by omega
  constructor
  · rcases le_total 0 va with hva | hva
    · calc -M ^ 2 + M = (M - 1) * -M := by ring
        _ ≤ va * -M := mul_le_mul_of_nonpos_right hahi (by omega)
        _ ≤ va * vb := mul_le_mul_of_nonneg_left hblo hva
    · calc -M ^ 2 + M = -M * (M - 1) := by ring
        _ ≤ va * (M - 1) := mul_le_mul_of_nonneg_right halo (by omega)
        _ ≤ va * vb := mul_le_mul_of_nonpos_left hbhi hva
  · calc va * vb ≤ |va| * |vb| := (le_abs_self _).trans (abs_mul va vb).le
      _ ≤ M * M :=
        mul_le_mul (abs_le.2 ⟨halo, by omega⟩) (abs_le.2 ⟨hblo, by omega⟩) (abs_nonneg vb) (by omega)
      _ = M ^ 2 := (sq M).symm

/-- Settles O24: the bounds are those of `product_bounds` at `M = 2^(W-1)`, and the wrap's word is `wrapW_eq_iff`'s. -/
theorem multiplicationOverflowRule : Obligations.MultiplicationOverflowRule := by
  intro W va vb hW ha hb
  have hsq : (2 : Int) ^ (2 * W - 2) = (2 ^ (W - 1)) ^ 2 := by
    rw [← pow_mul, Nat.sub_mul, Nat.mul_comm]
  rw [hsq]
  exact ⟨product_bounds ha hb, wrapW_of_inWordRange hW, (wrapW_eq_iff hW).1 rfl⟩

/-- `wrap_W` sees its argument modulo `2^W` only. -/
theorem wrapW_congr {W : Nat} {z z' : Int} (h : z ≡ z' [ZMOD 2 ^ W]) : wrapW W z = wrapW W z' := by
  unfold wrapW
  rw [← Int.emod_bmod z, ← Int.emod_bmod z']
  push_cast
  rw [h.eq]

/-- `wrap_W` is the signed reading of the low `W` bits. -/
theorem toInt_ofInt_eq_wrapW (W : Nat) (z : Int) : (BitVec.ofInt W z).toInt = wrapW W z := by
  rw [BitVec.toInt_ofInt, wrapW]

/-- Settles O25: signed or unsigned, an operand is the same word modulo `2^W`, and sums and products respect that. -/
theorem plainWordAluAgrees : Obligations.PlainWordAluAgrees := by
  intro W va vb
  have ha : va % 2 ^ W ≡ va [ZMOD 2 ^ W] := Int.mod_modEq va _
  have hb : vb % 2 ^ W ≡ vb [ZMOD 2 ^ W] := Int.mod_modEq vb _
  rw [← BitVec.ofInt_add, ← BitVec.ofInt_mul]
  exact ⟨(toInt_ofInt_eq_wrapW W _).symm, (toInt_ofInt_eq_wrapW W _).symm, wrapW_congr (ha.add hb),
    wrapW_congr (ha.mul hb)⟩

end Sys2Proof.Proofs
end

section
/-! SUPPORT. Proofs of the statements of 42_halt.md: HLT, in every state and as the step that fetches it. -/

namespace Sys2Proof.Proofs

open Sys2Proof.Machine Sys2Proof.Safety Sys2Proof.Laws

/-- HLT has no case to tell apart: it reads nothing of the state but `ip` (42_halt.md R140). -/
theorem exec_hlt (s : State) : exec .hlt s = .next { s with ip := s.ip + 1, status := .halted } := rfl

/-- Once the opcode word 99 is read, the step of a ready core is HLT, with no operand read before it. -/
theorem step_hlt_fetched {s : State} (hready : ready s) (hop : memRead s s.ip = .value 99) :
    step s = exec .hlt s := by
  rw [step, stepWith_ready _ hready, fetchThen, reading_value hop]
  rfl

theorem haltedFlag_eq_false_of_ready {s : State} (hready : ready s) : haltedFlag s = false := by
  obtain ⟨-, hrunning, -⟩ := hready
  simp [haltedFlag, hrunning]

/-- Settles O18: `exec_hlt` is the first clause; the step is HLT by `step_hlt_fetched` and lists one read by
`stepAccesses_hlt`, and a ready core is running, so its flag rises. -/
theorem hltFollowsItsRule : Obligations.HltFollowsItsRule :=
  ⟨exec_hlt, fun s hready hop =>
    ⟨(step_hlt_fetched hready hop).trans (exec_hlt s), stepAccesses_hlt hready hop,
      haltedFlag_eq_false_of_ready hready, rfl⟩⟩

end Sys2Proof.Proofs
end

section
/-! SUPPORT. Proofs of the statements of 60_exceptions.md: each way a fault is raised, and the record it leaves. -/

namespace Sys2Proof.Proofs

open Sys2Proof.Machine Sys2Proof.Safety Sys2Proof.Laws

/-! ### Faults of the opcode fetch and the dispatch (60_exceptions.md R151, R153) -/

section
variable {s : State} (hready : ready s)
include hready

/-- An opcode fetch out of bounds faults with the address itself recorded, `ip` not advanced. -/
theorem step_fetch_outOfBounds (hout : ¬ inBounds s s.ip) :
    step s = .next (faultedState s s.ip .memoryFault s.ip) := by
  rw [step, stepWith_ready _ hready, fetchThen, reading_outOfRange (memRead_eq_outOfRange.2 hout)]
  rfl

/-- Once a word that is no opcode is read, the step of a ready core is the dispatch's fault. -/
theorem step_invalid_fetched {op : Int} (hop : memRead s s.ip = .value op) (hd : decodeOpcode op = none) :
    step s = .next (faultedState s (s.ip + 1) .invalidOpcode op) := by
  rw [step, stepWith_ready _ hready, fetchThen, reading_value hop, hd]
  rfl

end

/-- Settles O27: the word is no opcode by `decodeOpcode_eq_none_iff`, so the dispatch faults, after one read. -/
theorem invalidOpcodeFault : Obligations.InvalidOpcodeFault := by
  intro s op hready hop hne
  have hd := decodeOpcode_eq_none_iff.2 hne
  exact ⟨step_invalid_fetched hready hop hd, stepAccesses_invalid hready hop hd⟩

/-- Settles O29: the invariant keeps `ip` at most `N`, so the fetch leaves the bounds at `N` alone. -/
theorem opcodeFetchPastTheEnd : Obligations.OpcodeFetchPastTheEnd := by
  intro s hs hready
  have hpointer := hs.pointer
  have hend : ¬ inBounds s s.ip ↔ s.ip = s.mlen := by
    simp only [inBounds]
    omega
  refine ⟨hend, fun hip => ?_⟩
  have hstep := step_fetch_outOfBounds hready (hend.2 hip)
  rwa [hip] at hstep

/-! ### Faults on the rest of an ADD or MUL (60_exceptions.md R152) -/

/-- In a total image every read in bounds gives a word. -/
theorem memRead_value_of_total {s : State} {addr : Int} (himage : totalImage s) (hin : inBounds s addr) :
    ∃ v, memRead s addr = .value v := by
  cases hread : memRead s addr with
  | value v => exact ⟨v, rfl⟩
  | outOfRange => exact absurd hin (memRead_eq_outOfRange.1 hread)
  | unwritten => exact absurd hread (memRead_total himage addr)

section
variable {s : State} {op : Int} {exact : Int → Int → Int} (hrule : QuadRule op exact s) (hready : ready s)
  (himage : totalImage s)
include hrule hready himage

/-- The operand words are read upwards from an opcode in bounds, so the first read to fail is the one at `N`. -/
theorem quad_straddles_end (hop : memRead s s.ip = .value op) (hlast : ¬ inBounds s (s.ip + 3)) :
    step s = .next (faultedState s (s.ip + 1) .memoryFault s.mlen) := by
  have hin := inBounds_of_memRead hop
  obtain ⟨hfault1, hrest⟩ := hrule hready hop
  by_cases h1 : inBounds s (s.ip + 1)
  · obtain ⟨a, ha⟩ := memRead_value_of_total himage h1
    obtain ⟨hfault2, hrest⟩ := hrest a ha
    by_cases h2 : inBounds s (s.ip + 2)
    · obtain ⟨b, hb⟩ := memRead_value_of_total himage h2
      obtain ⟨hfault3, -⟩ := hrest b hb
      have hend : (s.ip + 3 : Int) = s.mlen := by simp only [inBounds] at h2 hlast; omega
      exact hend ▸ hfault3 hlast
    · have hend : (s.ip + 2 : Int) = s.mlen := by simp only [inBounds] at h1 h2; omega
      exact hend ▸ hfault2 h2
  · have hend : (s.ip + 1 : Int) = s.mlen := by simp only [inBounds] at hin h1; omega
    exact hend ▸ hfault1 h1

/-- With the operand words read, the first of `a`, `b`, `t` that is out of bounds is the one reported. -/
theorem quad_operand_outOfBounds {a b t : Int} (hw : wordsAt s s.ip [op, a, b, t])
    (hout : ¬ (inBounds s a ∧ inBounds s b ∧ inBounds s t)) :
    ∃ addr : Int, (addr = a ∨ addr = b ∨ addr = t) ∧ ¬ inBounds s addr ∧
      step s = .next (faultedState s (s.ip + 4) .memoryFault addr) := by
  obtain ⟨hop, hwa, hwb, hwt⟩ := wordsAt_quad_iff.1 hw
  obtain ⟨-, hrest⟩ := hrule hready hop
  obtain ⟨-, hrest⟩ := hrest a hwa
  obtain ⟨-, hrest⟩ := hrest b hwb
  obtain ⟨hfaultA, hrest⟩ := hrest t hwt
  by_cases ha : inBounds s a
  · obtain ⟨va, hva⟩ := memRead_value_of_total himage ha
    obtain ⟨hfaultB, hrest⟩ := hrest va hva
    by_cases hb : inBounds s b
    · obtain ⟨vb, hvb⟩ := memRead_value_of_total himage hb
      obtain ⟨hfaultT, -⟩ := hrest vb hvb
      have ht : ¬ inBounds s t := fun ht => hout ⟨ha, hb, ht⟩
      exact ⟨t, .inr (.inr rfl), ht, hfaultT ht⟩
    · exact ⟨b, .inr (.inl rfl), hb, hfaultB hb⟩
  · exact ⟨a, .inl rfl, ha, hfaultA ha⟩

end

/-- Opcodes 1 and 2 follow the format-Q rule, each with its own exact result. -/
theorem exists_quadRule {op : Int} (s : State) (ho : op = 1 ∨ op = 2) : ∃ exact, QuadRule op exact s := by
  rcases ho with rfl | rfl
  · exact ⟨_, addFollowsItsRule s⟩
  · exact ⟨_, mulFollowsItsRule s⟩

/-- Settles O28: `QuadRule` gives the faults in the order they are checked, and over a total image every check before
the failing one passes. -/
theorem arithmeticMemoryFaults : Obligations.ArithmeticMemoryFaults := by
  intro s op hready himage ho
  obtain ⟨_, hrule⟩ := exists_quadRule s ho
  exact ⟨quad_straddles_end hrule hready himage, fun a b t => quad_operand_outOfBounds hrule hready himage⟩

/-! ### What a fault records (60_exceptions.md R158, R159, decisions D6 and D7) -/

/-- Settles O30: each fault branch of the step is a `takeFault` over an advance of `ip` alone, raised where the
recorded address is out of bounds or the recorded word is no opcode. -/
theorem faultsArePrecise : Obligations.FaultsArePrecise := by
  intro s u hready h hu
  rcases step_ready_next hready h with ⟨a, b, t, va, vb, -, -, -, -, rfl⟩ |
    ⟨a, b, t, va, vb, -, -, -, -, rfl⟩ | ⟨-, rfl⟩ | ⟨op, addr, -, -, hout, ⟨-, rfl⟩ | ⟨-, rfl⟩⟩ |
    ⟨op, hop, hd, rfl⟩ | ⟨hout, rfl⟩
  · simp [running_of_ready hready] at hu
  · simp [running_of_ready hready] at hu
  · simp at hu
  · exact ⟨rfl, .inl ⟨rfl, hout⟩⟩
  · exact ⟨rfl, .inl ⟨rfl, hout⟩⟩
  · exact ⟨rfl, .inr ⟨rfl, hop, hd, rfl⟩⟩
  · exact ⟨rfl, .inl ⟨rfl, hout⟩⟩

end Sys2Proof.Proofs
end

section
/-! SUPPORT. Proofs of the statements of 70_reset_and_hazards.md: the one stop of a step, a reset inside a step, the
host's gated access, the moves that are refused, and boot. -/

namespace Sys2Proof.Proofs

open Sys2Proof.Machine Sys2Proof.Safety Sys2Proof.Laws

/-! ### The one stop of a step (70_reset_and_hazards.md R193, decision D13) -/

theorem reading_unwritten {s : State} {ip0 : Nat} {addr : Int} {k : Int → Result} (h : memRead s addr = .unwritten) :
    reading s ip0 addr k = .fault (.unwrittenCell addr.toNat) := by
  simp [reading, h]

/-- The answer is a next state, or the stop at a cell of the image of `s` that nothing has written. -/
def StopsOnlyUnwritten (s : State) (o : Result) : Prop :=
  (∃ u, o = .next u) ∨ ∃ a, a < s.mlen ∧ readCell s.mem a = none ∧ o = .fault (.unwrittenCell a)

theorem stopsOnlyUnwritten_next (s u : State) : StopsOnlyUnwritten s (.next u) := .inl ⟨u, rfl⟩

section
variable {s : State}

theorem stopsOnlyUnwritten_reading (ip0 : Nat) (addr : Int) {k : Int → Result}
    (hk : ∀ v, StopsOnlyUnwritten s (k v)) : StopsOnlyUnwritten s (reading s ip0 addr k) := by
  cases hread : memRead s addr with
  | value v => simpa [reading_value hread] using hk v
  | outOfRange => exact .inl ⟨_, reading_outOfRange hread⟩
  | unwritten =>
    obtain ⟨⟨hnonneg, hlt⟩, hcell⟩ := memRead_eq_unwritten.1 hread
    exact .inr ⟨addr.toNat, by omega, hcell, reading_unwritten hread⟩

theorem stopsOnlyUnwritten_storing (ip0 : Nat) (addr v : Int) : StopsOnlyUnwritten s (storing s ip0 addr v) := by
  by_cases hin : inBounds s addr
  · exact .inl ⟨_, storing_inBounds hin⟩
  · exact .inl ⟨_, storing_outOfRange hin⟩

theorem stopsOnlyUnwritten_operandWords (ip0 : Nat) {k : Int → Int → Int → Result}
    (hk : ∀ a b t, StopsOnlyUnwritten s (k a b t)) : StopsOnlyUnwritten s (operandWords s ip0 k) :=
  stopsOnlyUnwritten_reading ip0 _ fun a =>
    stopsOnlyUnwritten_reading ip0 _ fun b =>
      stopsOnlyUnwritten_reading ip0 _ fun t => hk a b t

/-- An advance of `ip` leaves the image as it was, so the accesses after it can stop at the same cells only. -/
theorem stopsOnlyUnwritten_of_setIp {n : Nat} {o : Result} (h : StopsOnlyUnwritten (setIp n s) o) :
    StopsOnlyUnwritten s o := h

theorem stopsOnlyUnwritten_arith (alu : Int → Int → Int) (a b t : Int) :
    StopsOnlyUnwritten s (arith alu a b t s) :=
  stopsOnlyUnwritten_of_setIp <|
    stopsOnlyUnwritten_reading s.ip a fun va =>
      stopsOnlyUnwritten_reading s.ip b fun vb => stopsOnlyUnwritten_storing s.ip t (alu va vb)

theorem stopsOnlyUnwritten_exec (i : Instr) : StopsOnlyUnwritten s (exec i s) := by
  cases i with
  | add a b t => exact stopsOnlyUnwritten_arith _ a b t
  | mul a b t => exact stopsOnlyUnwritten_arith _ a b t
  | hlt => exact stopsOnlyUnwritten_next _ _

theorem stopsOnlyUnwritten_fetchThen {k : Instr → Result} (hk : ∀ i, StopsOnlyUnwritten s (k i)) :
    StopsOnlyUnwritten s (fetchThen s k) := by
  refine stopsOnlyUnwritten_reading _ _ fun op => ?_
  cases decodeOpcode op with
  | none => exact stopsOnlyUnwritten_next _ _
  | some o =>
    cases o with
    | add =>
      exact stopsOnlyUnwritten_of_setIp (stopsOnlyUnwritten_operandWords s.ip fun a b t => hk (.add a b t))
    | mul =>
      exact stopsOnlyUnwritten_of_setIp (stopsOnlyUnwritten_operandWords s.ip fun a b t => hk (.mul a b t))
    | hlt => exact hk .hlt

end

theorem stopsOnlyUnwritten_step (s : State) : StopsOnlyUnwritten s (step s) := by
  rcases gate_cases s with hrst | hready | ⟨hrst, hheld⟩
  · exact .inl ⟨_, step_inReset hrst⟩
  · rw [step, stepWith_ready exec hready]
    exact stopsOnlyUnwritten_fetchThen stopsOnlyUnwritten_exec
  · exact .inl ⟨s, gateHoldsTheState s hrst hheld.symm⟩

/-- Settles O8: reads alone can stop, each at the cell it was to read, and no operation of a step answers a refusal. -/
theorem onlyUnwrittenCellsStop : Obligations.OnlyUnwrittenCellsStop := by
  intro s
  rcases stopsOnlyUnwritten_step s with ⟨u, hu⟩ | ⟨a, hlt, hcell, hstop⟩
  · simp [hu]
  · exact ⟨fun r hr => ⟨a, hlt, hcell, by simpa [hstop] using hr.symm⟩, by simp [hstop]⟩

/-! ### A reset inside a step (70_reset_and_hazards.md R192, decision D19) -/

theorem rstInStep_completes {s u : State} (hready : ready s) (h : step s = .next u) :
    rstInStep true s = .next (raiseRst u) := by
  simp [rstInStep, hready, h]

theorem rstInStep_abandoned (s : State) : rstInStep false s = .next (raiseRst s) := by
  simp [rstInStep]

/-- What a step changes is Memory and the CPU state, and reset then overwrites the CPU state. -/
theorem raiseRst_after_step {s u : State} (h : step s = .next u) : raiseRst u = { raiseRst s with mem := u.mem } := by
  obtain ⟨hcfg, hlen, hwritten, -, hen⟩ := stepKeepsConfigAndLength s u h
  simp [raiseRst, cpuReset, hcfg, hlen, hwritten, hen]

/-- Settles O45: the completed step leaves its Memory alone (`raiseRst_after_step`), the abandoned one nothing. -/
theorem midStepResetHasTwoOutcomes : Obligations.MidStepResetHasTwoOutcomes := fun s _ hready h =>
  ⟨(rstInStep_completes hready h).trans (congrArg _ (raiseRst_after_step h)), rstInStep_abandoned s⟩

/-! ### The host's ports outside reset (70_reset_and_hazards.md R196, decision D11; 60_exceptions.md R171) -/

section
variable {s : State} (hrst : s.rst = false)
include hrst

theorem portWrite_of_rst_low (addr data : Int) : portWrite addr data s = .next s := by
  simp [portWrite, hrst]

theorem portWriteMlen_of_rst_low (n : Int) : portWriteMlen n s = .next s := by
  simp [portWriteMlen, hrst]

theorem portRead_of_running (hrun : s.status = .running) (addr : Int) : portRead addr s = none := by
  simp [portRead, hrst, hrun]

end

theorem portRead_of_stopped {s : State} {addr : Int} (hstop : s.status ≠ .running) (hin : inBounds s addr) :
    portRead addr s = readCell s.mem addr.toNat := if_pos ⟨.inr hstop, hin⟩

theorem portRead_outOfBounds {s : State} {addr : Int} (hout : ¬ inBounds s addr) : portRead addr s = none :=
  if_neg fun ⟨_, hin⟩ => hout hin

/-- Settles O41: one rule above for each port and, of the read, for each side of its gate. -/
theorem hostAccessIsGated : Obligations.HostAccessIsGated := fun _ addr v hrst =>
  ⟨portWrite_of_rst_low hrst addr v, portWriteMlen_of_rst_low hrst v, rfl,
    fun hrun => portRead_of_running hrst hrun addr, portRead_of_stopped, portRead_outOfBounds⟩

/-! ### The host's ports under reset (70_reset_and_hazards.md R193, R194, R200) -/

section
variable {s : State} (hrst : s.rst = true)
include hrst

theorem releaseRst_lengthNeverWritten (hwritten : s.mlenWritten = false) :
    releaseRst s = .refused .lengthNeverWritten := by
  simp [releaseRst, hrst, hwritten]

theorem releaseRst_partialImage (hwritten : s.mlenWritten = true) (himage : ¬ totalImage s) :
    releaseRst s = .refused .partialImage := by
  rw [releaseRst, if_pos hrst, if_pos hwritten, if_neg himage]

theorem releaseRst_totalImage (hwritten : s.mlenWritten = true) (himage : totalImage s) :
    releaseRst s = .next { s with rst := false } := by
  rw [releaseRst, if_pos hrst, if_pos hwritten, if_pos himage]

theorem portWrite_notWord {data : Int} (hdata : ¬ inWordRange s.cfg.W data) (addr : Int) :
    portWrite addr data s = .refused .valueOutOfWordRange := by
  rw [portWrite, if_pos hrst, if_neg hdata]

theorem portWrite_accepted {data : Int} (hdata : inWordRange s.cfg.W data) {a : Nat} (ha : a < s.cfg.NMAX) :
    portWrite a data s = .next (setCell a data s) := by
  rw [portWrite, if_pos hrst, if_pos hdata, if_pos (by omega), Int.toNat_natCast]

theorem portWriteMlen_outOfRange {n : Int} (hn : ¬ (0 ≤ n ∧ n ≤ s.cfg.NMAX)) :
    portWriteMlen n s = .refused .lengthOutOfRange := by
  rw [portWriteMlen, if_pos hrst, if_neg hn]

theorem portWriteMlen_accepted {n : Nat} (hn : n ≤ s.cfg.NMAX) : portWriteMlen n s = .next (setLength n s) := by
  rw [portWriteMlen, if_pos hrst, if_pos (by omega), Int.toNat_natCast]

end

/-- Settles O44: one rule above for each answer of each port. -/
theorem hostMovesRefused : Obligations.HostMovesRefused := fun _ hrst =>
  ⟨releaseRst_lengthNeverWritten hrst, releaseRst_partialImage hrst, releaseRst_totalImage hrst,
    fun addr _ hdata => portWrite_notWord hrst hdata addr, fun _ => portWriteMlen_outOfRange hrst⟩

/-! ### Boot (70_reset_and_hazards.md R193 to R195, decision D13) -/

theorem portSteps_cons {mv : HostMove} {s u : State} (h : portStep mv s = .next u) (mvs : List HostMove) :
    portSteps (mv :: mvs) s = portSteps mvs u := by
  simp [portSteps, h]

theorem portSteps_append {mvs : List HostMove} {s u : State} (h : portSteps mvs s = .next u)
    (mvs' : List HostMove) : portSteps (mvs ++ mvs') s = portSteps mvs' u := by
  induction mvs generalizing s with
  | nil =>
    obtain rfl : s = u := by simpa [portSteps] using h
    rfl
  | cons mv mvs ih =>
    unfold portSteps at h
    split at h
    · next v hv => rw [List.cons_append, portSteps_cons hv, ih h]
    · simp at h
    · simp at h

/-- Under reset the host's writes of words within the capacity put them in consecutive cells. -/
theorem portSteps_imageWrites {s : State} {k : Nat} {vs : List Int} (hrst : s.rst = true)
    (hcap : k + vs.length ≤ s.cfg.NMAX) (hvs : ∀ v ∈ vs, inWordRange s.cfg.W v) :
    portSteps (imageWrites k vs) s = .next { s with mem := writeCells s.mem k vs } := by
  induction vs generalizing s k with
  | nil => rfl
  | cons v vs ih =>
    obtain ⟨hv, hvs⟩ := List.forall_mem_cons.1 hvs
    rw [List.length_cons] at hcap
    have hfirst : portStep (.writeMem k v) s = .next (setCell k v s) := portWrite_accepted hrst hv (by omega)
    rw [imageWrites, portSteps_cons hfirst]
    exact ih (s := setCell k v s) hrst (by simp only [setCell_cfg]; omega) hvs

/-- A written cell stays written under further writes. -/
theorem isSome_readCell_writeCells {m : Memory} {a : Nat} (h : (readCell m a).isSome = true) (k : Nat)
    (vs : List Int) : (readCell (writeCells m k vs) a).isSome = true := by
  induction vs generalizing m k with
  | nil => exact h
  | cons v vs ih =>
    refine ih ?_ (k + 1)
    rw [readCell_writeCell]
    split_ifs
    · rfl
    · exact h

theorem readCell_writeCells_zero {m : Memory} {image : List Int} {k : Nat} {v : Int} (h : image[k]? = some v) :
    readCell (writeCells m 0 image) k = some v := by
  obtain ⟨hk, -⟩ := List.getElem?_eq_some_iff.1 h
  rw [← h, ← readCell_writeCells m 0 k image hk, Nat.zero_add]

/-- The core right after a launch from `s` over an image of `n` words, with Memory `m` (R193, R197). -/
def bootedState (s : State) (n : Nat) (m : Memory) : State :=
  { raiseRst s with mlen := n, mlenWritten := true, mem := m, rst := false, en := true }

theorem memRead_bootedState {s : State} {n k : Nat} {m : Memory} {v : Int} (hk : k < n)
    (hcell : readCell m k = some v) : memRead (bootedState s n m) k = .value v :=
  memRead_eq_value.2 ⟨⟨Int.natCast_nonneg k, Int.ofNat_lt.2 hk⟩, hcell⟩

/-- Boot with the parameter writes `vs` to consecutive cells of the image: the length, the image and the parameters are
accepted under reset, and the image is then total, so the release is not refused. -/
theorem portSteps_bootMoves {s : State} {image vs : List Int} {k : Nat} (hcap : image.length ≤ s.cfg.NMAX)
    (himage : ∀ v ∈ image, inWordRange s.cfg.W v) (hk : k + vs.length ≤ image.length)
    (hvs : ∀ v ∈ vs, inWordRange s.cfg.W v) :
    portSteps (bootMoves image (imageWrites k vs)) s =
      .next (bootedState s image.length (writeCells (writeCells s.mem 0 image) k vs)) := by
  have hwrite : portStep (.writeMlen image.length) (raiseRst s) = .next (setLength image.length (raiseRst s)) :=
    portWriteMlen_accepted rfl hcap
  have hlength : portSteps [.driveRst true, .writeMlen image.length] s =
      .next (setLength image.length (raiseRst s)) := (portSteps_cons rfl _).trans (portSteps_cons hwrite [])
  have hload := (portSteps_append hlength _).trans
    (portSteps_imageWrites (s := setLength image.length (raiseRst s)) (k := 0) rfl (by simpa using hcap) himage)
  have hparams := (portSteps_append hload _).trans (portSteps_imageWrites rfl (hk.trans hcap) hvs)
  rw [bootMoves, portSteps_append hparams, portSteps_cons rfl]
  refine portSteps_cons (mv := .driveRst false) (releaseRst_totalImage rfl rfl fun a ha => ?_) []
  refine isSome_readCell_writeCells ?_ k vs
  rw [readCell_writeCells_zero (List.getElem?_eq_getElem ha)]
  rfl

/-- Settles O42: both boots are `portSteps_bootMoves`, with the parameters as the words of cells 1 and 2. -/
theorem bootLoadsTheImage : Obligations.BootLoadsTheImage := by
  intro s image hcap himage
  refine ⟨?_, fun p1 p2 hp1 hp2 hlen => ?_⟩
  · refine ⟨_, portSteps_bootMoves (k := 0) (vs := []) hcap himage (by simp) (by simp),
      rfl, ⟨rfl, rfl, rfl⟩, rfl, rfl, rfl, rfl, rfl, rfl, fun k v hv => ?_⟩
    obtain ⟨hk, -⟩ := List.getElem?_eq_some_iff.1 hv
    have hcell := readCell_writeCells_zero (m := s.mem) hv
    exact memRead_bootedState hk hcell
  · refine ⟨_, portSteps_bootMoves (k := 1) (vs := [p1, p2]) hcap himage
      (by simpa using hlen) (List.forall_mem_cons.2 ⟨hp1, List.forall_mem_singleton.2 hp2⟩),
      rfl, ⟨rfl, rfl, rfl⟩, rfl, rfl, ?_, ?_, fun k v hk1 hk2 hv => ?_⟩
    · exact memRead_bootedState (k := 1) (by omega) (readCell_writeCells _ 1 0 [p1, p2] (by simp))
    · exact memRead_bootedState (k := 2) (by omega) (readCell_writeCells _ 1 1 [p1, p2] (by simp))
    · obtain ⟨hk, -⟩ := List.getElem?_eq_some_iff.1 hv
      refine memRead_bootedState hk ?_
      rw [writeCells, writeCells, writeCells, readCell_writeCell_other _ _ _ _ hk2,
        readCell_writeCell_other _ _ _ _ hk1, readCell_writeCells_zero hv]

end Sys2Proof.Proofs
end

section
/-! SUPPORT. Proofs that a step depends on Memory only through the reads it lists, and a run only on the image and the
width (20_memory.md R57, R58; 40_sequencer.md R108). -/

namespace Sys2Proof.Proofs

open Sys2Proof.Machine Sys2Proof.Safety Sys2Proof.Laws

/-! ### One step over two Memories (20_memory.md R57)

The second state is the first with Memory `m` in place of its own. Each operation of the step is followed together with
the part of the list of accesses that it makes. -/

/-- If `m` agrees with `mem` on the reads in `accesses` and `o` is a next state, then `o'` is that state over a Memory
that differs from `m` in the listed writes alone. -/
def TracksAccesses (mem m : Memory) (accesses : List MemAccess) (o o' : Result) : Prop :=
  (∀ addr, MemAccess.read addr ∈ accesses → readCell m addr.toNat = readCell mem addr.toNat) →
  ∀ u, o = .next u → ∃ m', o' = .next { u with mem := m' } ∧
    ∀ addr : Nat, readCell m' addr = if MemAccess.write addr ∈ accesses then readCell u.mem addr else readCell m addr

theorem tracing_outOfRange {s : State} {addr : Int} {k : Int → List MemAccess} (h : memRead s addr = .outOfRange) :
    tracing s addr k = [] := by
  simp [tracing, h]

section
variable {s : State} {m : Memory}

/-- An answer that touches no Memory. -/
theorem tracksAccesses_next (mem : Memory) (u : State) :
    TracksAccesses mem m [] (.next u) (.next { u with mem := m }) := by
  intro _ u' hu
  obtain rfl : u = u' := by simpa using hu
  exact ⟨m, rfl, by simp⟩

/-- A read that gives a word is listed, so the other Memory gives the same word. -/
theorem tracksAccesses_reading (ip0 : Nat) (addr : Int) {accesses : Int → List MemAccess} {k k' : Int → Result}
    (hk : ∀ v, TracksAccesses s.mem m (accesses v) (k v) (k' v)) :
    TracksAccesses s.mem m (tracing s addr accesses) (reading s ip0 addr k)
      (reading { s with mem := m } ip0 addr k') := by
  cases hread : memRead s addr with
  | value v =>
    rw [tracing_value hread, reading_value hread]
    intro hagree u hu
    have hsame : memRead { s with mem := m } addr = memRead s addr :=
      memRead_congr (s := { s with mem := m }) (u := s) rfl addr fun _ => hagree addr List.mem_cons_self
    rw [reading_value (hsame.trans hread)]
    simpa using hk v (fun other hother => hagree other (List.mem_cons_of_mem _ hother)) u hu
  | outOfRange =>
    have hread' : memRead { s with mem := m } addr = .outOfRange :=
      memRead_eq_outOfRange.2 (memRead_eq_outOfRange.1 hread : ¬ inBounds s addr)
    rw [tracing_outOfRange hread, reading_outOfRange hread, reading_outOfRange hread']
    exact tracksAccesses_next s.mem (takeFault .memoryFault addr ip0 s)
  | unwritten =>
    intro _ u hu
    simp [reading_unwritten hread] at hu

/-- A store is listed when it is in bounds, and puts the same word in the cell over either Memory. -/
theorem tracksAccesses_storing (ip0 : Nat) (addr v : Int) :
    TracksAccesses s.mem m (if inBounds s addr then [.write addr] else []) (storing s ip0 addr v)
      (storing { s with mem := m } ip0 addr v) := by
  by_cases hin : inBounds s addr
  · rw [if_pos hin, storing_inBounds hin, storing_inBounds (s := { s with mem := m }) hin]
    intro _ u hu
    obtain rfl : setCell addr.toNat v s = u := by simpa using hu
    refine ⟨writeCell m addr.toNat v, rfl, fun other => ?_⟩
    obtain ⟨hnonneg, -⟩ := hin
    have hcell : (other : Int) = addr ↔ other = addr.toNat := by omega
    simp only [setCell_mem, readCell_writeCell, List.mem_singleton, MemAccess.write.injEq, hcell]
    split_ifs <;> rfl
  · rw [if_neg hin, storing_outOfRange hin, storing_outOfRange (s := { s with mem := m }) hin]
    exact tracksAccesses_next s.mem (takeFault .memoryFault addr ip0 s)

/-- An ADD or MUL from its operand words on: five reads and then the store, with `ip` advanced on the way. -/
theorem tracksAccesses_traceArith (n : Nat) (alu : Int → Int → Int) :
    TracksAccesses s.mem m (traceArith s)
      (operandWords (setIp n s) s.ip fun a b t => arith alu a b t s)
      (operandWords { setIp n s with mem := m } s.ip fun a b t => arith alu a b t { s with mem := m }) :=
  tracksAccesses_reading (s := setIp n s) s.ip (s.ip + 1) fun a =>
  tracksAccesses_reading (s := setIp n s) s.ip (s.ip + 2) fun b =>
  tracksAccesses_reading (s := setIp n s) s.ip (s.ip + 3) fun t =>
  tracksAccesses_reading (s := setIp (s.ip + 4) s) s.ip a fun va =>
  tracksAccesses_reading (s := setIp (s.ip + 4) s) s.ip b fun vb =>
  tracksAccesses_storing (s := setIp (s.ip + 4) s) s.ip t (alu va vb)

theorem tracksAccesses_fetchThen (hready : ready s) :
    TracksAccesses s.mem m (stepAccesses s) (fetchThen s fun i => exec i s)
      (fetchThen { s with mem := m } fun i => exec i { s with mem := m }) := by
  rw [stepAccesses, if_pos hready]
  refine tracksAccesses_reading s.ip s.ip fun op => ?_
  cases decodeOpcode op with
  | none => exact tracksAccesses_next s.mem (takeFault .invalidOpcode op s.ip (setIp (s.ip + 1) s))
  | some o =>
    cases o with
    | add => exact tracksAccesses_traceArith (s.ip + 1) (aluAdd s.cfg.W)
    | mul => exact tracksAccesses_traceArith (s.ip + 1) (aluMul s.cfg.W)
    | hlt => exact tracksAccesses_next s.mem (setStatus .halted (setIp (s.ip + 1) s))

end

theorem tracksAccesses_step (s : State) (m : Memory) :
    TracksAccesses s.mem m (stepAccesses s) (step s) (step { s with mem := m }) := by
  rcases gate_cases s with hrst | hready | ⟨hrst, hheld⟩
  · rw [stepAccesses_of_not_ready fun ⟨hlow, _⟩ => by simp [hrst] at hlow, step_inReset hrst,
      step_inReset (s := { s with mem := m }) hrst]
    exact tracksAccesses_next s.mem (cpuReset s)
  · rw [step, step, stepWith_ready exec hready, stepWith_ready (s := { s with mem := m }) exec hready]
    exact tracksAccesses_fetchThen hready
  · have hidle : ¬ ready s := by
      rintro ⟨-, hrun, hen⟩
      rcases hheld with hstop | hoff
      · exact hstop hrun
      · simp [hen] at hoff
    rw [stepAccesses_of_not_ready hidle, gateHoldsTheState s hrst hheld.symm,
      gateHoldsTheState { s with mem := m } hrst hheld.symm]
    exact tracksAccesses_next s.mem s

/-- Settles O34: `TracksAccesses` holds of each access of the step together with its entry in the list, and so of the
whole step. -/
theorem stepDependsOnListedReads : Obligations.StepDependsOnListedReads := by
  intro s u m hagree hu
  obtain ⟨m', hstep, hcells⟩ := tracksAccesses_step s m hagree u hu
  exact ⟨{ u with mem := m' }, hstep, rfl, hcells⟩

/-! ### A run over a booted image (40_sequencer.md R108; 60_exceptions.md R161; 70_reset_and_hazards.md R193) -/

/-- What booting leaves of the core's past is its capacity and the cells beyond the image. -/
theorem sameVisible_bootedState {s s' : State} {image : List Int} (hwidth : s.cfg.W = s'.cfg.W) :
    SameVisible (bootedState s image.length (writeCells s.mem 0 image))
      (bootedState s' image.length (writeCells s'.mem 0 image)) where
  width := hwidth
  ip := rfl
  status := rfl
  faultKind := rfl
  faultValue := rfl
  faultAt := rfl
  mlen := rfl
  rst := rfl
  en := rfl
  cells a ha := by
    have himage : image[a]? = some image[a] := List.getElem?_eq_getElem ha
    exact (readCell_writeCells_zero himage).trans (readCell_writeCells_zero himage).symm

/-- Booting an image with no parameter writes leaves `bootedState`. -/
theorem eq_bootedState_of_bootMoves {s u : State} {image : List Int} (hcap : image.length ≤ s.cfg.NMAX)
    (himage : ∀ v ∈ image, inWordRange s.cfg.W v) (h : portSteps (bootMoves image []) s = .next u) :
    u = bootedState s image.length (writeCells s.mem 0 image) := by
  have hboot := portSteps_bootMoves (k := 0) (vs := []) hcap himage (by simp) (by simp)
  exact Host.Outcome.next.inj (h.symm.trans hboot)

/-- Settles O43: the booted states agree on what a program sees, and from there O35 carries the agreement along. -/
theorem runIsFunctionOfImage : Obligations.RunIsFunctionOfImage := by
  intro s s' u u' image hwidth hcap hcap' himage hu hu'
  obtain rfl := eq_bootedState_of_bootMoves hcap himage hu
  obtain rfl := eq_bootedState_of_bootMoves hcap' (hwidth ▸ himage) hu'
  have hsame := sameVisible_bootedState (image := image) hwidth
  refine ⟨hsame, fun n => ?_⟩
  obtain ⟨hnext, -⟩ := cellsBeyondLengthDoNotMatter n _ _ hsame
  exact hnext

end Sys2Proof.Proofs
end

section
/-! SUPPORT. Proofs that the host's moves keep the invariant and that a total image always steps
(40_sequencer.md R111; 70_reset_and_hazards.md R193, R196, R200). -/

namespace Sys2Proof.Proofs

open Sys2Proof.Machine Sys2Proof.Safety Sys2Proof.Laws

section
variable {s : State} (hs : Inv s)
include hs

theorem inv_raiseRst : Inv (raiseRst s) :=
  inv_cpuReset (s := { s with rst := true }) hs.config hs.length hs.canonical hs.cells

theorem inv_releaseRst : Inv { s with rst := false } :=
  { hs with inReset := fun hrst => by simp at hrst }

theorem inv_driveEn (level : Bool) : Inv { s with en := level } := { hs with }

variable (hrst : s.rst = true)
include hrst

/-- Under reset the core is running, so R111 (d) asks nothing of the cells, and any of them may be written. -/
theorem inv_setCell_inReset {a : Nat} {v : Int} (ha : a < s.cfg.NMAX) (hv : inWordRange s.cfg.W v) :
    Inv (setCell a v s) := by
  obtain ⟨-, hrun⟩ := hs.inReset hrst
  exact
    { hs with
      canonical := writeCell_wf a v hs.canonical
      cells := fun c hc => by
        rcases mem_writeCell hc with rfl | hc
        · exact ⟨ha, hv⟩
        · exact hs.cells c hc
      halted := fun hst => by simp [hrun] at hst }

/-- Under reset `ip = 0`, so any length covers it, and there is no record whose address the length could cut off. -/
theorem inv_setLength_inReset {n : Nat} (hn : n ≤ s.cfg.NMAX) : Inv (setLength n s) := by
  obtain ⟨hip, hrun⟩ := hs.inReset hrst
  exact
    { hs with
      length := hn
      pointer := by simp [hip]
      faulted := fun hst => by simp [hrun] at hst }

end

/-- Settles O4: a move that raises `rst` does so after a step or at once; of the others each port's inversion lemma
names the one update that the move makes. -/
theorem hostMovesKeepInv : Obligations.HostMovesKeepInv := by
  intro mv s u hs h
  cases hraise : raisesRst mv with
  | true =>
    obtain ⟨v, rfl | hv, rfl⟩ := portStep_raises hraise h
    · exact inv_raiseRst hs
    · exact inv_raiseRst (stepKeepsInv s v hs hv)
  | false =>
    cases mv with
    | driveRst level =>
      obtain rfl : level = false := hraise
      rcases releaseRst_next h with ⟨-, rfl⟩ | ⟨-, -, -, rfl⟩
      · exact hs
      · exact inv_releaseRst hs
    | rstMidStep completes => simp [raisesRst] at hraise
    | driveEn level => cases h; exact inv_driveEn hs level
    | writeMem addr data =>
      rcases portWrite_next h with ⟨hrst, hword, hnonneg, hlt, rfl⟩ | ⟨-, rfl⟩
      · exact inv_setCell_inReset hs hrst (by omega) hword
      · exact hs
    | readMem addr => cases h; exact hs
    | writeMlen n =>
      rcases portWriteMlen_next h with ⟨hrst, hnonneg, hle, rfl⟩ | ⟨-, rfl⟩
      · exact inv_setLength_inReset hs hrst (by omega)
      · exact hs

/-- Settles O7: `TotalAnswer` is the conclusion, and no read of a total image stops the model. -/
theorem totalImageAlwaysSteps : Obligations.TotalImageAlwaysSteps := fun _ => totalAnswer_step

end Sys2Proof.Proofs
end

section
/-! SUPPORT. Proofs of what ADD, MUL and HLT do and leave unchanged (41_arithmetic.md R120, R121; 42_halt.md R140). -/

namespace Sys2Proof.Proofs

open Sys2Proof.Machine Sys2Proof.Safety Sys2Proof.Laws

/-- Settles O16: ADD is `arith` over the wrapped sum. -/
theorem addCompletes : Obligations.AddCompletes := fun _ _ _ _ _ _ => arith_completes

/-- Settles O17: MUL is `arith` over the wrapped product. -/
theorem mulCompletes : Obligations.MulCompletes := fun _ _ _ _ _ _ => arith_completes

/-- What the body of ADD and MUL never changes, whether it completes or faults. -/
theorem arith_keeps {alu : Int → Int → Int} {a b t : Int} {s u : State} (h : arith alu a b t s = .next u) :
    u.cfg = s.cfg ∧ u.mlen = s.mlen ∧ u.mlenWritten = s.mlenWritten ∧ u.rst = s.rst ∧ u.en = s.en := by
  rcases arith_next h with ⟨va, vb, -, -, -, rfl⟩ | ⟨addr, -, -, rfl⟩ <;> simp

theorem arith_keeps_other_cells {alu : Int → Int → Int} {a b t : Int} {s u : State}
    (h : arith alu a b t s = .next u) {addr : Nat} (hne : (addr : Int) ≠ t) :
    readCell u.mem addr = readCell s.mem addr := by
  rcases arith_next h with ⟨va, vb, -, -, ⟨hnonneg, -⟩, rfl⟩ | ⟨bad, -, -, rfl⟩
  · exact readCell_writeCell_other s.mem t.toNat addr (alu va vb) (by omega)
  · rfl

/-- The body of ADD and MUL keeps the status and the record, or it faults, keeps Memory, and has an operand to blame. -/
theorem arith_keeps_record_or_faults {alu : Int → Int → Int} {a b t : Int} {s u : State}
    (h : arith alu a b t s = .next u) :
    (u.status = s.status ∧ u.faultKind = s.faultKind ∧ u.faultValue = s.faultValue ∧ u.faultAt = s.faultAt) ∨
      (u.status = .faulted ∧ u.faultKind = .memoryFault ∧ u.faultAt = s.ip ∧ u.mem = s.mem ∧
        ¬ (inBounds s a ∧ inBounds s b ∧ inBounds s t)) := by
  rcases arith_next h with ⟨va, vb, -, -, -, rfl⟩ | ⟨addr, haddr, hout, rfl⟩
  · exact .inl ⟨rfl, rfl, rfl, rfl⟩
  · refine .inr ⟨rfl, rfl, rfl, rfl, fun ⟨ha, hb, ht⟩ => ?_⟩
    rcases haddr with rfl | rfl | rfl
    · exact hout ha
    · exact hout hb
    · exact hout ht

/-- ADD and MUL are one body over two ALU operations. -/
theorem exists_arith_of_exec {a b t : Int} {s u : State}
    (h : exec (.add a b t) s = .next u ∨ exec (.mul a b t) s = .next u) : ∃ alu, arith alu a b t s = .next u := by
  rcases h with h | h
  · exact ⟨aluAdd s.cfg.W, h⟩
  · exact ⟨aluMul s.cfg.W, h⟩

/-- Settles O19: ADD and MUL by the three frame lemmas of their body; HLT by `exec_hlt`, which names what it changes. -/
theorem instructionFrames : Obligations.InstructionFrames := by
  refine ⟨fun s u a b t h => ?_, fun s u h => ?_⟩
  · obtain ⟨alu, h⟩ := exists_arith_of_exec h
    obtain ⟨hcfg, hlen, hwritten, hrst, hen⟩ := arith_keeps h
    exact ⟨hcfg, hlen, hwritten, hrst, hen, fun _ => arith_keeps_other_cells h, arith_keeps_record_or_faults h⟩
  · obtain rfl := Host.Outcome.next.inj ((exec_hlt s).symm.trans h)
    exact ⟨rfl, rfl, rfl, rfl, rfl, rfl, rfl, rfl, fun _ => rfl⟩

end Sys2Proof.Proofs
end

section
/-! SUPPORT. Proofs of how a step meets the decoder: the words it accepts, the instruction at `ip`, and an instruction
placed there (30_encoding.md R80 to R83; 40_sequencer.md R101). -/

namespace Sys2Proof.Proofs

open Sys2Proof.Machine Sys2Proof.Safety Sys2Proof.Laws

/-! ### The words the decoder accepts (30_encoding.md R80, R83) -/

/-- The opcode word fixes the instruction's form, and the words after it are its operands in order. -/
theorem eq_encode_append_of_decode {ws rest : List Int} {i : Instr} (h : decode ws = .instr i rest) :
    ws = encode i ++ rest := by
  cases ws with
  | nil => simp [decode] at h
  | cons op ws =>
    cases hd : decodeOpcode op with
    | none => simp [decode, hd] at h
    | some o =>
      obtain rfl := decodeOpcode_eq_some_iff.1 hd
      cases o with
      | add =>
        match ws, h with
        | a :: b :: t :: _, h => cases h; rfl
      | mul =>
        match ws, h with
        | a :: b :: t :: _, h => cases h; rfl
      | hlt => cases h; rfl

/-- Settles O37: one direction is the round trip, the other `eq_encode_append_of_decode`. -/
theorem decodeAcceptsOnlyEncodings : Obligations.DecodeAcceptsOnlyEncodings := fun _ rest i =>
  ⟨eq_encode_append_of_decode, fun hws => hws ▸ decode_encode_append i rest⟩

/-- Settles O39: each packed number is unpacked and decoded at `W = 32`. -/
theorem sampleWordsDecode : Obligations.SampleWordsDecode := by
  unfold Obligations.SampleWordsDecode
  decide

/-! ### The instruction at `ip` (40_sequencer.md R101) -/

theorem wordsAt_of_append {s : State} {at0 : Nat} {ws rest : List Int} (h : wordsAt s at0 (ws ++ rest)) :
    wordsAt s at0 ws := fun j w hj => h j w (by
  obtain ⟨hlt, -⟩ := List.getElem?_eq_some_iff.1 hj
  rwa [List.getElem?_append_left hlt])

/-- Settles O5: words that decode to an instruction begin with its encoding, which the fetch passes on. -/
theorem stepRunsDecodedInstruction : Obligations.StepRunsDecodedInstruction := by
  intro s ws rest i hready hws hdecode
  rw [eq_encode_append_of_decode hdecode] at hws
  exact step_instr hready (wordsAt_of_append hws)

/-! ### An instruction placed at `ip` (log entries 11 and 14) -/

theorem length_wordsOfBits (W count w : Nat) : (wordsOfBits W count w).length = count := by
  induction count generalizing w with
  | zero => rfl
  | succ count ih => rw [wordsOfBits, List.length_cons, ih]

theorem length_tableWords (W nbits w : Nat) : (tableWords W nbits w).length = maxLengthWords :=
  length_wordsOfBits W maxLengthWords _

/-- Placing writes the table words from `ip` up and makes `MLEN` cover them. -/
theorem wordsAt_withFetchWord (s : State) (nbits w : Nat) :
    wordsAt (s.withFetchWord nbits w) s.ip (tableWords s.cfg.W nbits w) := by
  intro j v hj
  obtain ⟨hlt, -⟩ := List.getElem?_eq_some_iff.1 hj
  have hcover : s.ip + j < max s.mlen (s.ip + maxLengthWords) := by
    rw [length_tableWords] at hlt
    omega
  refine memRead_eq_value.2 ⟨⟨by omega, Int.ofNat_lt.2 hcover⟩, ?_⟩
  exact (readCell_writeCells s.mem s.ip j _ hlt).trans hj

theorem ready_withFetchWord (s : State) (nbits w : Nat) : ready (s.withFetchWord nbits w) := ⟨rfl, rfl, rfl⟩

theorem exists_decode_of_decodeBits {W nbits w : Nat} {i : Instr} (h : decodeBits W nbits w = some i) :
    ∃ rest, decode (tableWords W nbits w) = .instr i rest := by
  unfold decodeBits at h
  split at h
  · next j rest hdecode => exact ⟨rest, by simpa [hdecode] using h⟩
  · simp at h
  · simp at h

/-- The table words are as many as the longest instruction has, so they decode to nothing only by their opcode. -/
theorem exists_invalidOpcode_of_decodeBits {W nbits w : Nat} (h : decodeBits W nbits w = none) :
    ∃ op, (tableWords W nbits w)[0]? = some op ∧ decodeOpcode op = none := by
  obtain ⟨op, a, b, t, hwords⟩ : ∃ op a b t, tableWords W nbits w = [op, a, b, t] := ⟨_, _, _, _, rfl⟩
  refine ⟨op, by rw [hwords]; rfl, ?_⟩
  rw [decodeBits, hwords] at h
  cases hd : decodeOpcode op with
  | none => rfl
  | some o => cases o <;> simp [decode, hd] at h

/-- Settles O40: the placed words stand at `ip` of a ready core, so O5 gives the instruction's step and
`step_invalid_fetched` the fault. -/
theorem placedInstructionRuns : Obligations.PlacedInstructionRuns := by
  intro s nbits w
  have hready := ready_withFetchWord s nbits w
  have hwords := wordsAt_withFetchWord s nbits w
  refine ⟨fun i hi => ?_, fun hnone => ?_⟩
  · obtain ⟨rest, hdecode⟩ := exists_decode_of_decodeBits hi
    exact stepRunsDecodedInstruction _ _ rest i hready hwords hdecode
  · obtain ⟨op, hfirst, hd⟩ := exists_invalidOpcode_of_decodeBits hnone
    have hop : memRead (s.withFetchWord nbits w) s.ip = .value op := by simpa using hwords 0 op hfirst
    exact ⟨op, hd, step_invalid_fetched hready hop hd⟩

end Sys2Proof.Proofs
end
